-- ==== Sys2Proof/Word.lean ====
section
/-! DEFINITION. The widths of the ISS CPU's data (spec/00_scope.md R3) and nothing else. -/

namespace Sys2Proof

/-- A register, an address, the program counter or an instruction word: 32 bits (R3). -/
abbrev Word := BitVec 32

/-- A half-word: 16 bits (R3). -/
abbrev Half := BitVec 16

/-- The content of one address: 8 bits (R3). -/
abbrev Byte := BitVec 8

/-- A register number, as a 5-bit field holds it; every value names a register (R20). -/
abbrev RegNum := BitVec 5

/-- The field imm16, a raw bit string (R7, R71). -/
abbrev Imm16 := BitVec 16

/-- The field imm26, a raw bit string (R7, R71). -/
abbrev Imm26 := BitVec 26

/-- A word is a multiple of 4: bits 1:0 are 00 (R28). -/
def Word.aligned (w : Word) : Bool := w.toNat % 4 == 0

end Sys2Proof
end

