-- ==== Sys2Proof/Config.lean ====
section
/-! DEFINITION. The open parameters of spec/00_scope.md R4 and the free values.
`Config` is plain data and stands in State (no step changes it, R35), so that a statement over all states holds
for every byte order, every memory map and every reset address. The free values are constants with no body. -/

namespace Sys2Proof

/-- `BYTE_ORDER` (R43): the order of the bytes of half-words and words in data accesses, fetch and `.word` alike. -/
inductive ByteOrder where
  | little
  | big
  deriving DecidableEq, Repr

/-- The three kinds of access `MEM_MAP` tells apart (R41). -/
inductive AccessKind where
  | read
  | write
  | fetch
  deriving DecidableEq, Repr

/-- One region of `MEM_MAP` (R41): the addresses base .. base+size-1 and the kinds of access it lets through. -/
structure Region where
  base : Nat
  size : Nat
  read : Bool
  write : Bool
  fetch : Bool
  deriving DecidableEq, Repr

/-- The open parameters `BYTE_ORDER`, `MEM_MAP` and `RESET_PC` (R4). -/
structure Config where
  byteOrder : ByteOrder
  memMap : List Region
  resetPc : Word
  deriving DecidableEq, Repr

/-- The parameters `State.reset` takes. DESIGN CHOICE, unsafe (log 2, 3, 4): the spec leaves all three open. -/
def Config.chosen : Config where
  byteOrder := .little
  memMap := [⟨0, 4294967296, true, true, true⟩]
  resetPc := 0

/-- `RESET_PC` is a multiple of 4 (R28, R261). -/
def Config.wf (c : Config) : Bool := c.resetPc.aligned

/-- `SDIV_ROUNDING` (R109 option (a)): quotient and remainder of a signed division with a negative operand, a
function of dividend and divisor alone. FREE VALUE (log 6): nothing says which function it is. -/
opaque Config.sdivRounding : Int → Int → Int × Int

/-- The free words of a run, drawn in order. FREE VALUE (log 7): `pc` after HALT (R193, U17). -/
opaque Config.freeWord : Nat → Word

/-- The code the assembler's `.string` lays down for a character. FREE VALUE (log 27): R222 states none. -/
opaque Config.charCode : Char → Byte

/-- The named property `SdivTruncates` of a rounding function (R109): toward zero, the remainder with the sign
of the dividend. -/
def SdivTruncates (f : Int → Int → Int × Int) : Prop :=
  ∀ a b : Int, b ≠ 0 → ¬(a = -2147483648 ∧ b = -1) →
    f a b = (a.sign * b.sign * ((a.natAbs / b.natAbs : Nat) : Int),
      a - a.sign * b.sign * ((a.natAbs / b.natAbs : Nat) : Int) * b)

/-- The named property `SdivFloors` of a rounding function (R109): toward minus infinity, the remainder with the
sign of the divisor. -/
def SdivFloors (f : Int → Int → Int × Int) : Prop :=
  ∀ a b : Int, b ≠ 0 → ¬(a = -2147483648 ∧ b = -1) →
    f a b = (a.fdiv b, a - a.fdiv b * b)

end Sys2Proof
end

