-- ==== Sys2Proof/Machine/ByteOrder.lean ====
section
/-! DEFINITION. How a value lies in memory as bytes (R44) and how it is assembled again (R47). -/

namespace Sys2Proof.Machine

/-- The n low bytes of a value, least significant first (R44, little). -/
def lowBytes : Nat → Word → List Byte
  | 0, _ => []
  | n + 1, v => v.setWidth 8 :: lowBytes n (v >>> 8)

/-- The value whose bytes, least significant first, are given; zeros above them (R47, little). -/
def ofLowBytes : List Byte → Word
  | [] => 0
  | b :: bs => (ofLowBytes bs <<< 8) ||| b.setWidth 32

/-- The n bytes of a value in order of rising address (R44). -/
def toBytes (o : ByteOrder) (n : Nat) (v : Word) : List Byte :=
  match o with
  | .little => lowBytes n v
  | .big => (lowBytes n v).reverse

/-- The value whose bytes, in order of rising address, are given (R47). -/
def fromBytes (o : ByteOrder) (bs : List Byte) : Word :=
  match o with
  | .little => ofLowBytes bs
  | .big => ofLowBytes bs.reverse

end Sys2Proof.Machine
end

