-- ==== Sys2Proof/Syntax.lean ====
section
/-! DEFINITION. The 42 instructions of spec/opcode_table.json (R2, R78), one constructor each, with the
fields of its format (R73). Each constructor's docstring gives the row's assembly form (R200). -/

namespace Sys2Proof

/-- The six instruction formats (R73). -/
inductive Format where
  | R3 | I | U | R1 | J | N
  deriving DecidableEq, Repr

/-- The 42 mnemonics in the source's order (R2). -/
inductive Mnemonic where
  | ADD | ADDI | SUB | SUBI | MULU | MUL | DIVU | DIV | LUI | SLL
  | SLLI | SRL | SRLI | AND | ANDI | OR | ORI | NOR | XOR | LB
  | LH | LW | LBU | LHU | SB | SH | SW | JR | CALL | B
  | BEQ | BNE | BGE | BGEU | BGT | BGTU | BLE | BLEU | BLT | BLTU
  | ERET | HALT
  deriving DecidableEq, Repr

/-- An instruction with its fields. A field's name does not give its role (R72): `rd` is read, not written,
by the stores, JR and the conditional branches. -/
inductive Instr where
  /-- `ADD Rd, Rs, Rt` (R100) -/
  | add (rd rs rt : RegNum)
  /-- `ADDI Rd, Rs, const16` (R101) -/
  | addi (rd rs : RegNum) (imm : Imm16)
  /-- `SUB Rd, Rs, Rt` (R102) -/
  | sub (rd rs rt : RegNum)
  /-- `SUBI Rd, Rs, const16` (R103) -/
  | subi (rd rs : RegNum) (imm : Imm16)
  /-- `MULU Rd, Rs, Rt` (R105) -/
  | mulu (rd rs rt : RegNum)
  /-- `MUL Rd, Rs, Rt` (R106) -/
  | mul (rd rs rt : RegNum)
  /-- `DIVU Rd, Rs, Rt` (R107) -/
  | divu (rd rs rt : RegNum)
  /-- `DIV Rd, Rs, Rt` (R108) -/
  | div (rd rs rt : RegNum)
  /-- `LUI Rd, const16` (R120) -/
  | lui (rd : RegNum) (imm : Imm16)
  /-- `SLL Rd, Rs, Rt` (R121) -/
  | sll (rd rs rt : RegNum)
  /-- `SLLI Rd, Rs, const16` (R122) -/
  | slli (rd rs : RegNum) (imm : Imm16)
  /-- `SRL Rd, Rs, Rt` (R123) -/
  | srl (rd rs rt : RegNum)
  /-- `SRLI Rd, Rs, const16` (R124) -/
  | srli (rd rs : RegNum) (imm : Imm16)
  /-- `AND Rd, Rs, Rt` (R125) -/
  | and (rd rs rt : RegNum)
  /-- `ANDI Rd, Rs, const16` (R126) -/
  | andi (rd rs : RegNum) (imm : Imm16)
  /-- `OR Rd, Rs, Rt` (R127) -/
  | or (rd rs rt : RegNum)
  /-- `ORI Rd, Rs, const16` (R128) -/
  | ori (rd rs : RegNum) (imm : Imm16)
  /-- `NOR Rd, Rs, Rt` (R129) -/
  | nor (rd rs rt : RegNum)
  /-- `XOR Rd, Rs, Rt` (R130) -/
  | xor (rd rs rt : RegNum)
  /-- `LB Rd, off16(Rs)` (R141) -/
  | lb (rd rs : RegNum) (imm : Imm16)
  /-- `LH Rd, off16(Rs)` (R142) -/
  | lh (rd rs : RegNum) (imm : Imm16)
  /-- `LW Rd, off16(Rs)` (R143) -/
  | lw (rd rs : RegNum) (imm : Imm16)
  /-- `LBU Rd, off16(Rs)` (R144) -/
  | lbu (rd rs : RegNum) (imm : Imm16)
  /-- `LHU Rd, off16(Rs)` (R145) -/
  | lhu (rd rs : RegNum) (imm : Imm16)
  /-- `SB Rs, off16(Rd)` (R146): Rd is the base, Rs the data -/
  | sb (rd rs : RegNum) (imm : Imm16)
  /-- `SH Rs, off16(Rd)` (R147): Rd is the base, Rs the data -/
  | sh (rd rs : RegNum) (imm : Imm16)
  /-- `SW Rs, off16(Rd)` (R148): Rd is the base, Rs the data -/
  | sw (rd rs : RegNum) (imm : Imm16)
  /-- `JR Rd` (R161): Rd is read -/
  | jr (rd : RegNum)
  /-- `CALL const26` (R162) -/
  | call (imm : Imm26)
  /-- `B off26` (R163) -/
  | b (imm : Imm26)
  /-- `BEQ Rd, Rs, off16` (R165) -/
  | beq (rd rs : RegNum) (imm : Imm16)
  /-- `BNE Rd, Rs, off16` (R166) -/
  | bne (rd rs : RegNum) (imm : Imm16)
  /-- `BGE Rd, Rs, off16` (R167) -/
  | bge (rd rs : RegNum) (imm : Imm16)
  /-- `BGEU Rd, Rs, off16` (R168) -/
  | bgeu (rd rs : RegNum) (imm : Imm16)
  /-- `BGT Rd, Rs, off16` (R169) -/
  | bgt (rd rs : RegNum) (imm : Imm16)
  /-- `BGTU Rd, Rs, off16` (R170) -/
  | bgtu (rd rs : RegNum) (imm : Imm16)
  /-- `BLE Rd, Rs, off16` (R171) -/
  | ble (rd rs : RegNum) (imm : Imm16)
  /-- `BLEU Rd, Rs, off16` (R172) -/
  | bleu (rd rs : RegNum) (imm : Imm16)
  /-- `BLT Rd, Rs, off16` (R173) -/
  | blt (rd rs : RegNum) (imm : Imm16)
  /-- `BLTU Rd, Rs, off16` (R174) -/
  | bltu (rd rs : RegNum) (imm : Imm16)
  /-- `ERET` (R191) -/
  | eret
  /-- `HALT` (R192) -/
  | halt
  deriving DecidableEq, Repr

end Sys2Proof
end

