-- ==== Sys2Proof/WellFormed.lean ====
section
/-! DEFINITION. Which operands an instruction may have (U21, R200): what an assembler refuses because it does
not fit its field. Instr holds its fields at their own widths, so an Instr that could not be encoded cannot be
written; the check is on the operands as a line of assembly gives them, plain numbers. -/

namespace Sys2Proof

/-- One operand as a line of assembly gives it, before it is packed into its field (R200). -/
inductive Operand where
  /-- `R<n>` -/
  | reg (n : Nat)
  /-- an unsigned 16-bit constant (R75) -/
  | const16 (n : Nat)
  /-- an unsigned 26-bit constant, CALL's (R75, 90_conflicts.md C1) -/
  | const26 (n : Nat)
  /-- a 32-bit constant, the pseudo-instruction LI's (R210) -/
  | const32 (n : Nat)
  /-- a signed 16-bit offset (R75) -/
  | off16 (k : Int)
  /-- a signed 26-bit offset, B's (R75) -/
  | off26 (k : Int)
  deriving DecidableEq, Repr

/-- The operand fits its field (R20, R75, R76, U21). -/
def Operand.fits : Operand → Bool
  | .reg n => n < 32
  | .const16 n => n < 65536
  | .const26 n => n < 67108864
  | .const32 n => n < 4294967296
  | .off16 k => -32768 ≤ k && k < 32768
  | .off26 k => -33554432 ≤ k && k < 33554432

/-- An instruction's operands in the order of its assembly form (R200). In a load and in a store the register
inside the parentheses, the base, comes last (R140). -/
def Instr.operands : Instr → List Operand
  | .add d s t => [.reg d.toNat, .reg s.toNat, .reg t.toNat]
  | .addi d s c => [.reg d.toNat, .reg s.toNat, .const16 c.toNat]
  | .sub d s t => [.reg d.toNat, .reg s.toNat, .reg t.toNat]
  | .subi d s c => [.reg d.toNat, .reg s.toNat, .const16 c.toNat]
  | .mulu d s t => [.reg d.toNat, .reg s.toNat, .reg t.toNat]
  | .mul d s t => [.reg d.toNat, .reg s.toNat, .reg t.toNat]
  | .divu d s t => [.reg d.toNat, .reg s.toNat, .reg t.toNat]
  | .div d s t => [.reg d.toNat, .reg s.toNat, .reg t.toNat]
  | .lui d c => [.reg d.toNat, .const16 c.toNat]
  | .sll d s t => [.reg d.toNat, .reg s.toNat, .reg t.toNat]
  | .slli d s c => [.reg d.toNat, .reg s.toNat, .const16 c.toNat]
  | .srl d s t => [.reg d.toNat, .reg s.toNat, .reg t.toNat]
  | .srli d s c => [.reg d.toNat, .reg s.toNat, .const16 c.toNat]
  | .and d s t => [.reg d.toNat, .reg s.toNat, .reg t.toNat]
  | .andi d s c => [.reg d.toNat, .reg s.toNat, .const16 c.toNat]
  | .or d s t => [.reg d.toNat, .reg s.toNat, .reg t.toNat]
  | .ori d s c => [.reg d.toNat, .reg s.toNat, .const16 c.toNat]
  | .nor d s t => [.reg d.toNat, .reg s.toNat, .reg t.toNat]
  | .xor d s t => [.reg d.toNat, .reg s.toNat, .reg t.toNat]
  | .lb d s o => [.reg d.toNat, .off16 o.toInt, .reg s.toNat]
  | .lh d s o => [.reg d.toNat, .off16 o.toInt, .reg s.toNat]
  | .lw d s o => [.reg d.toNat, .off16 o.toInt, .reg s.toNat]
  | .lbu d s o => [.reg d.toNat, .off16 o.toInt, .reg s.toNat]
  | .lhu d s o => [.reg d.toNat, .off16 o.toInt, .reg s.toNat]
  | .sb d s o => [.reg s.toNat, .off16 o.toInt, .reg d.toNat]
  | .sh d s o => [.reg s.toNat, .off16 o.toInt, .reg d.toNat]
  | .sw d s o => [.reg s.toNat, .off16 o.toInt, .reg d.toNat]
  | .jr d => [.reg d.toNat]
  | .call c => [.const26 c.toNat]
  | .b o => [.off26 o.toInt]
  | .beq d s o => [.reg d.toNat, .reg s.toNat, .off16 o.toInt]
  | .bne d s o => [.reg d.toNat, .reg s.toNat, .off16 o.toInt]
  | .bge d s o => [.reg d.toNat, .reg s.toNat, .off16 o.toInt]
  | .bgeu d s o => [.reg d.toNat, .reg s.toNat, .off16 o.toInt]
  | .bgt d s o => [.reg d.toNat, .reg s.toNat, .off16 o.toInt]
  | .bgtu d s o => [.reg d.toNat, .reg s.toNat, .off16 o.toInt]
  | .ble d s o => [.reg d.toNat, .reg s.toNat, .off16 o.toInt]
  | .bleu d s o => [.reg d.toNat, .reg s.toNat, .off16 o.toInt]
  | .blt d s o => [.reg d.toNat, .reg s.toNat, .off16 o.toInt]
  | .bltu d s o => [.reg d.toNat, .reg s.toNat, .off16 o.toInt]
  | .eret => []
  | .halt => []

/-- Every operand of the instruction fits its field. -/
def Instr.wellFormed (i : Instr) : Bool := i.operands.all Operand.fits

end Sys2Proof
end

