-- ==== Sys2Proof/Decode.lean ====
section
/-! DEFINITION. The encoding of the 42 instructions (spec/30_encoding.md): the opcode table, the decoder (R82),
the encoder (R74). -/

namespace Sys2Proof

/-- Why a word is no instruction (R82). -/
inductive DecodeError where
  /-- the opcode is one of the 22 unassigned values (R80) -/
  | illegalOpcode
  /-- a reserved bit of the format is 1 (R79) -/
  | reservedBitsNonzero
  deriving DecidableEq, Repr

/-! ### Fields (R71) -/

def fieldOpcode (w : Word) : BitVec 6 := w.extractLsb' 26 6
def fieldRd (w : Word) : RegNum := w.extractLsb' 21 5
def fieldRs (w : Word) : RegNum := w.extractLsb' 16 5
def fieldRt (w : Word) : RegNum := w.extractLsb' 11 5
def fieldImm16 (w : Word) : Imm16 := w.extractLsb' 0 16
def fieldImm26 (w : Word) : Imm26 := w.extractLsb' 0 26

/-! ### Decoding, one function a format (R73, R79, R82) -/

/-- Format R3: bits 10:0 are reserved. -/
def decodeR3 (w : Word) (make : RegNum → RegNum → RegNum → Instr) : Except DecodeError Instr :=
  if w.extractLsb' 0 11 = 0#11 then .ok (make (fieldRd w) (fieldRs w) (fieldRt w))
  else .error .reservedBitsNonzero

/-- Format I: no reserved bit. -/
def decodeI (w : Word) (make : RegNum → RegNum → Imm16 → Instr) : Except DecodeError Instr :=
  .ok (make (fieldRd w) (fieldRs w) (fieldImm16 w))

/-- Format U: bits 20:16 are reserved. -/
def decodeU (w : Word) (make : RegNum → Imm16 → Instr) : Except DecodeError Instr :=
  if w.extractLsb' 16 5 = 0#5 then .ok (make (fieldRd w) (fieldImm16 w))
  else .error .reservedBitsNonzero

/-- Format R1: bits 20:0 are reserved. -/
def decodeR1 (w : Word) (make : RegNum → Instr) : Except DecodeError Instr :=
  if w.extractLsb' 0 21 = 0#21 then .ok (make (fieldRd w))
  else .error .reservedBitsNonzero

/-- Format J: no reserved bit. -/
def decodeJ (w : Word) (make : Imm26 → Instr) : Except DecodeError Instr :=
  .ok (make (fieldImm26 w))

/-- Format N: bits 25:0 are reserved. -/
def decodeN (w : Word) (i : Instr) : Except DecodeError Instr :=
  if w.extractLsb' 0 26 = 0#26 then .ok i else .error .reservedBitsNonzero

/-- The decoder (R82): total on 32-bit words, the opcode map of R78. -/
def decode (w : Word) : Except DecodeError Instr :=
  match (fieldOpcode w).toNat with
  | 0x00 => decodeR3 w .add
  | 0x01 => decodeR3 w .sub
  | 0x02 => decodeR3 w .mulu
  | 0x03 => decodeR3 w .mul
  | 0x04 => decodeR3 w .divu
  | 0x05 => decodeR3 w .div
  | 0x06 => decodeU w .lui
  | 0x07 => decodeR3 w .sll
  | 0x08 => decodeR3 w .srl
  | 0x09 => decodeR3 w .and
  | 0x0A => decodeR3 w .or
  | 0x0B => decodeR3 w .nor
  | 0x0C => decodeR3 w .xor
  | 0x0D => decodeI w .lb
  | 0x0E => decodeI w .lh
  | 0x0F => decodeI w .lw
  | 0x10 => decodeI w .lbu
  | 0x11 => decodeI w .lhu
  | 0x12 => decodeI w .sb
  | 0x13 => decodeI w .sh
  | 0x14 => decodeI w .sw
  | 0x15 => decodeJ w .b
  | 0x16 => decodeR1 w .jr
  | 0x17 => decodeI w .beq
  | 0x18 => decodeI w .bne
  | 0x19 => decodeI w .bge
  | 0x1A => decodeI w .bgt
  | 0x1B => decodeI w .ble
  | 0x1C => decodeI w .blt
  | 0x1D => decodeJ w .call
  | 0x20 => decodeI w .addi
  | 0x21 => decodeI w .subi
  | 0x22 => decodeI w .bgeu
  | 0x23 => decodeI w .bgtu
  | 0x24 => decodeI w .bleu
  | 0x25 => decodeI w .bltu
  | 0x29 => decodeI w .andi
  | 0x2A => decodeI w .ori
  | 0x2B => decodeI w .slli
  | 0x2C => decodeI w .srli
  | 0x3E => decodeN w .eret
  | 0x3F => decodeN w .halt
  | _ => .error .illegalOpcode

/-- The decoder on the four bytes of an instruction in order of rising address (R57, R58). -/
def decodeBytes (o : ByteOrder) (b0 b1 b2 b3 : Byte) : Except DecodeError Instr :=
  decode (Machine.fromBytes o [b0, b1, b2, b3])

/-! ### Encoding (R74), every reserved bit 0 (R79) -/

def packR3 (op : BitVec 6) (rd rs rt : RegNum) : Word := op ++ rd ++ rs ++ rt ++ 0#11
def packI (op : BitVec 6) (rd rs : RegNum) (imm : Imm16) : Word := op ++ rd ++ rs ++ imm
def packU (op : BitVec 6) (rd : RegNum) (imm : Imm16) : Word := op ++ rd ++ 0#5 ++ imm
def packR1 (op : BitVec 6) (rd : RegNum) : Word := op ++ rd ++ 0#21
def packJ (op : BitVec 6) (imm : Imm26) : Word := op ++ imm
def packN (op : BitVec 6) : Word := op ++ 0#26

/-- The encoder: the word of an instruction (R74, R78). -/
def encode : Instr → Word
  | .add d s t => packR3 0b000000#6 d s t
  | .addi d s c => packI 0b100000#6 d s c
  | .sub d s t => packR3 0b000001#6 d s t
  | .subi d s c => packI 0b100001#6 d s c
  | .mulu d s t => packR3 0b000010#6 d s t
  | .mul d s t => packR3 0b000011#6 d s t
  | .divu d s t => packR3 0b000100#6 d s t
  | .div d s t => packR3 0b000101#6 d s t
  | .lui d c => packU 0b000110#6 d c
  | .sll d s t => packR3 0b000111#6 d s t
  | .slli d s c => packI 0b101011#6 d s c
  | .srl d s t => packR3 0b001000#6 d s t
  | .srli d s c => packI 0b101100#6 d s c
  | .and d s t => packR3 0b001001#6 d s t
  | .andi d s c => packI 0b101001#6 d s c
  | .or d s t => packR3 0b001010#6 d s t
  | .ori d s c => packI 0b101010#6 d s c
  | .nor d s t => packR3 0b001011#6 d s t
  | .xor d s t => packR3 0b001100#6 d s t
  | .lb d s o => packI 0b001101#6 d s o
  | .lh d s o => packI 0b001110#6 d s o
  | .lw d s o => packI 0b001111#6 d s o
  | .lbu d s o => packI 0b010000#6 d s o
  | .lhu d s o => packI 0b010001#6 d s o
  | .sb d s o => packI 0b010010#6 d s o
  | .sh d s o => packI 0b010011#6 d s o
  | .sw d s o => packI 0b010100#6 d s o
  | .jr d => packR1 0b010110#6 d
  | .call c => packJ 0b011101#6 c
  | .b o => packJ 0b010101#6 o
  | .beq d s o => packI 0b010111#6 d s o
  | .bne d s o => packI 0b011000#6 d s o
  | .bge d s o => packI 0b011001#6 d s o
  | .bgeu d s o => packI 0b100010#6 d s o
  | .bgt d s o => packI 0b011010#6 d s o
  | .bgtu d s o => packI 0b100011#6 d s o
  | .ble d s o => packI 0b011011#6 d s o
  | .bleu d s o => packI 0b100100#6 d s o
  | .blt d s o => packI 0b011100#6 d s o
  | .bltu d s o => packI 0b100101#6 d s o
  | .eret => packN 0b111110#6
  | .halt => packN 0b111111#6

/-- The four bytes of an instruction in memory, in order of rising address (R58). -/
def encodeBytes (o : ByteOrder) (i : Instr) : List Byte := Machine.toBytes o 4 (encode i)

/-! ### The opcode table as data (R78, R79), a second transcription to hold the decoder against -/

/-- An instruction's format (R73). -/
def Instr.format : Instr → Format
  | .add .. | .sub .. | .mulu .. | .mul .. | .divu .. | .div .. | .sll .. | .srl .. | .and .. | .or .. | .nor ..
  | .xor .. => .R3
  | .addi .. | .subi .. | .slli .. | .srli .. | .andi .. | .ori .. | .lb .. | .lh .. | .lw .. | .lbu .. | .lhu ..
  | .sb .. | .sh .. | .sw .. | .beq .. | .bne .. | .bge .. | .bgeu .. | .bgt .. | .bgtu .. | .ble .. | .bleu ..
  | .blt .. | .bltu .. => .I
  | .lui .. => .U
  | .jr .. => .R1
  | .call .. | .b .. => .J
  | .eret | .halt => .N

/-- The opcode mask plus the reserved bits of the format: the strict_mask column (R79). -/
def Format.strictMask : Format → Word
  | .R3 => 0xFC0007FF#32
  | .I => 0xFC000000#32
  | .U => 0xFC1F0000#32
  | .R1 => 0xFC1FFFFF#32
  | .J => 0xFC000000#32
  | .N => 0xFFFFFFFF#32

/-- The word with every field 0: the match column (R78). -/
def Instr.matchWord : Instr → Word
  | .add .. => 0x00000000#32
  | .addi .. => 0x80000000#32
  | .sub .. => 0x04000000#32
  | .subi .. => 0x84000000#32
  | .mulu .. => 0x08000000#32
  | .mul .. => 0x0C000000#32
  | .divu .. => 0x10000000#32
  | .div .. => 0x14000000#32
  | .lui .. => 0x18000000#32
  | .sll .. => 0x1C000000#32
  | .slli .. => 0xAC000000#32
  | .srl .. => 0x20000000#32
  | .srli .. => 0xB0000000#32
  | .and .. => 0x24000000#32
  | .andi .. => 0xA4000000#32
  | .or .. => 0x28000000#32
  | .ori .. => 0xA8000000#32
  | .nor .. => 0x2C000000#32
  | .xor .. => 0x30000000#32
  | .lb .. => 0x34000000#32
  | .lh .. => 0x38000000#32
  | .lw .. => 0x3C000000#32
  | .lbu .. => 0x40000000#32
  | .lhu .. => 0x44000000#32
  | .sb .. => 0x48000000#32
  | .sh .. => 0x4C000000#32
  | .sw .. => 0x50000000#32
  | .jr .. => 0x58000000#32
  | .call .. => 0x74000000#32
  | .b .. => 0x54000000#32
  | .beq .. => 0x5C000000#32
  | .bne .. => 0x60000000#32
  | .bge .. => 0x64000000#32
  | .bgeu .. => 0x88000000#32
  | .bgt .. => 0x68000000#32
  | .bgtu .. => 0x8C000000#32
  | .ble .. => 0x6C000000#32
  | .bleu .. => 0x90000000#32
  | .blt .. => 0x70000000#32
  | .bltu .. => 0x94000000#32
  | .eret => 0xF8000000#32
  | .halt => 0xFC000000#32

/-- The 22 opcode values no instruction has, as R80 lists them. -/
def unassignedOpcodes : List Nat :=
  [0x1E, 0x1F, 0x26, 0x27, 0x28, 0x2D, 0x2E, 0x2F, 0x30, 0x31, 0x32, 0x33, 0x34, 0x35, 0x36, 0x37,
   0x38, 0x39, 0x3A, 0x3B, 0x3C, 0x3D]

/-! ### The host's reading of one table word -/

/-- The word whose low `nbits` bits are those of `w` and whose other bits are 0. -/
def tableWord (nbits w : Nat) : Word := BitVec.ofNat 32 (w % 2 ^ nbits)

/-- The instruction the decoder reads from the table word, laid out as four bytes and decoded from them. The
two byte orders give the same answer, since layout and assembly use one order (R57). -/
def decodeTableWord (nbits w : Nat) : Option Instr :=
  match Machine.toBytes .little 4 (tableWord nbits w) with
  | [b0, b1, b2, b3] => (decodeBytes .little b0 b1 b2 b3).toOption
  | _ => none

end Sys2Proof
end

