-- ==== Sys2Proof/Machine/Flags.lean ====
section
/-! DEFINITION. The hardware has no flags (R31): no instruction computes one. What takes their place is the
condition each conditional branch computes from two registers itself (R164 to R174); all ten stand here. -/

namespace Sys2Proof.Machine

/-- BEQ (R165) -/
def condEq (a b : Word) : Bool := a == b
/-- BNE (R166) -/
def condNe (a b : Word) : Bool := a != b
/-- BGE, signed (R167) -/
def condGe (a b : Word) : Bool := b.toInt ≤ a.toInt
/-- BGEU, unsigned (R168) -/
def condGeu (a b : Word) : Bool := b.toNat ≤ a.toNat
/-- BGT, signed (R169) -/
def condGt (a b : Word) : Bool := b.toInt < a.toInt
/-- BGTU, unsigned (R170) -/
def condGtu (a b : Word) : Bool := b.toNat < a.toNat
/-- BLE, signed (R171) -/
def condLe (a b : Word) : Bool := a.toInt ≤ b.toInt
/-- BLEU, unsigned (R172) -/
def condLeu (a b : Word) : Bool := a.toNat ≤ b.toNat
/-- BLT, signed (R173) -/
def condLt (a b : Word) : Bool := a.toInt < b.toInt
/-- BLTU, unsigned (R174) -/
def condLtu (a b : Word) : Bool := a.toNat < b.toNat

end Sys2Proof.Machine
end

