-- ==== Sys2Proof/Machine/State.lean ====
section
/-! DEFINITION. The state of the ISS CPU (spec/10_state.md section 1) as plain data, the reasons a step can stop,
and the state after reset (R261). -/

namespace Sys2Proof.Machine

/-- Memory (R40): pairs of address and byte, addresses strictly rising, no pair whose byte is what an unlisted
address reads as (`Memory.wf`, Machine/Memory.lean). -/
abbrev Memory := List Host.Cell

/-- The machine's state. -/
structure State where
  /-- the general registers R0 .. R31 (R20); slot 0 is never read and never written (R21, log 25) -/
  regs : Vector Word 32
  /-- the program counter: the address of the instruction being executed (R25) -/
  pc : Word
  /-- the saved exception-resume address, or no value (R29) -/
  epc : Option Word
  /-- the halt line (R30) -/
  halted : Bool
  /-- memory (R40, R45) -/
  mem : Memory
  /-- the byte addresses the run's stores have written, strictly rising (R59) -/
  written : List Nat
  /-- the open parameters `BYTE_ORDER`, `MEM_MAP`, `RESET_PC` (R4); no step changes them (R35) -/
  cfg : Config
  /-- THE MODEL'S OWN FIELD: how many free words the run has drawn (log 7) -/
  freeCount : Nat
  deriving DecidableEq, Repr

/-- Why a step has no next state. The first ten are the model faults of R236 that this model raises: the state is
left as it was before the instruction (R236, R239). All are safe: the machine stops where the chip may go on. -/
inductive Fault where
  /-- raised by the fetch: `pc` is not a multiple of 4 (R57); safe -/
  | misalignedFetch
  /-- raised by the fetch, the loads and the stores: a byte of the access is not let through by `MEM_MAP` for its
  kind (R41, R47, R48); safe -/
  | accessNotAdmitted
  /-- raised by the fetch: a fetched byte was written by a store of the run (R59); safe -/
  | fetchOfModified
  /-- raised by decode: one of the 22 unassigned opcodes (R80); safe -/
  | illegalOpcode
  /-- raised by decode: a reserved bit of the format is 1 (R79); safe -/
  | reservedBitsNonzero
  /-- raised by LH, LHU, LW, SH, SW: the address is not a multiple of the access size (R46); safe -/
  | misalignedData
  /-- raised by DIVU and DIV: the divisor register holds 0 (R110); safe -/
  | divideByZero
  /-- raised by DIV: dividend -2^31, divisor -1 (R110); safe -/
  | divideOverflow
  /-- raised by JR and ERET: bits 1:0 of the target are not 00 (R161, R191); safe -/
  | misalignedTarget
  /-- raised by ERET: no address was saved (R191); safe -/
  | eretNoAddress
  /-- raised by the step of a state whose halt line is up, by no instruction: no step leaves such a state, which is
  final (R30, R192, U18, log 8). Not one of R236's faults. Safe -/
  | stuckHalted
  deriving DecidableEq, Repr

/-- Why the model gives an instruction no meaning. -/
inductive Refusal where
  /-- raised by an arm of exec whose instruction has no meaning yet; safe -/
  | notModelled (mnemonic : String)
  deriving DecidableEq, Repr

/-- The state a run starts from (R261, R262): the parameters `c`, and registers, memory and saved address as the
launch gives them. -/
def State.launch (c : Config) (regs : Vector Word 32) (mem : Memory) (epc : Option Word) : State where
  regs := regs
  pc := c.resetPc
  epc := epc
  halted := false
  mem := mem
  written := []
  cfg := c
  freeCount := 0

/-- The state right after reset (R34, R261): `epc` no value, the halt line down, nothing written, `pc` at
`RESET_PC`. DESIGN CHOICE, unsafe: R1 .. R31 hold 0 (log 1), the parameters are `Config.chosen` (log 2, 3, 4),
memory lists nothing (log 5). -/
def State.reset : State := State.launch Config.chosen (Vector.replicate 32 0) [] none

end Sys2Proof.Machine
end

