-- ==== Sys2Proof/Machine/Memory.lean ====
section
/-! DEFINITION. Memory as an array of bytes (R40, R45), the set of written addresses (R59) and the memory map
(R41). -/

namespace Sys2Proof.Machine

/-- What an address that memory does not list reads as. DESIGN CHOICE, unsafe for claims about `State.reset`
(log 5): the spec leaves the content of memory the launch did not set open (R34, U12). -/
def unlistedByte : Byte := 0#8

/-- Every entry's address is at least `lo` and below 2^32, addresses rise strictly, and no entry holds the byte an
unlisted address reads as. -/
def Memory.wfFrom : Nat → Memory → Bool
  | _, [] => true
  | lo, (k, v) :: m => lo ≤ k && k < 4294967296 && v != unlistedByte && Memory.wfFrom (k + 1) m

/-- Memory is in its one canonical form. -/
def Memory.wf (m : Memory) : Bool := Memory.wfFrom 0 m

/-- The byte at an address. -/
def Memory.read : Memory → Nat → Byte
  | [], _ => unlistedByte
  | (k, v) :: m, a => if a = k then v else Memory.read m a

/-- Memory with one byte written; keeps the canonical form. -/
def Memory.write : Memory → Nat → Byte → Memory
  | [], a, b => if b = unlistedByte then [] else [(a, b)]
  | (k, v) :: m, a, b =>
    if a < k then (if b = unlistedByte then (k, v) :: m else (a, b) :: (k, v) :: m)
    else if a = k then (if b = unlistedByte then m else (a, b) :: m)
    else (k, v) :: Memory.write m a b

/-- An address computed past the top of the address space, modulo 2^32 (R44). -/
def wrapAddr (a : Nat) : Nat := a % 4294967296

/-- The n bytes at a, a+1, .., modulo 2^32 (R44, R47). -/
def Memory.readBytes (m : Memory) : Nat → Nat → List Byte
  | _, 0 => []
  | a, n + 1 => m.read (wrapAddr a) :: Memory.readBytes m (a + 1) n

/-- Memory with bytes laid at a, a+1, .., modulo 2^32 (R44, R48). -/
def Memory.writeBytes : Memory → Nat → List Byte → Memory
  | m, _, [] => m
  | m, a, b :: bs => Memory.writeBytes (m.write (wrapAddr a) b) (a + 1) bs

/-- The addresses of a set rise strictly from `lo` on and lie below 2^32. -/
def addrsWfFrom : Nat → List Nat → Bool
  | _, [] => true
  | lo, k :: ks => lo ≤ k && k < 4294967296 && addrsWfFrom (k + 1) ks

/-- A set of addresses is in its one canonical form. -/
def addrsWf (ks : List Nat) : Bool := addrsWfFrom 0 ks

/-- A set of addresses with one more. -/
def addAddr : List Nat → Nat → List Nat
  | [], a => [a]
  | k :: ks, a => if a < k then a :: k :: ks else if a = k then k :: ks else k :: addAddr ks a

/-- A set of addresses with a .. a+n-1 added. -/
def addAddrs : List Nat → Nat → Nat → List Nat
  | ks, _, 0 => ks
  | ks, a, n + 1 => addAddrs (addAddr ks a) (a + 1) n

/-- Some byte a .. a+n-1 is in the set. -/
def anyAddr (ks : List Nat) : Nat → Nat → Bool
  | _, 0 => false
  | a, n + 1 => ks.contains a || anyAddr ks (a + 1) n

/-- The region lets this kind of access through (R41). -/
def regionAllows (r : Region) : AccessKind → Bool
  | .read => r.read
  | .write => r.write
  | .fetch => r.fetch

/-- The address lies in the region. -/
def regionCovers (r : Region) (a : Nat) : Bool := r.base ≤ a && a < r.base + r.size

/-- `MEM_MAP` lets this kind of access to this byte through (R41): some region that covers it does. -/
def mapAllows (c : Config) (kind : AccessKind) (a : Nat) : Bool :=
  c.memMap.any fun r => regionCovers r a && regionAllows r kind

/-- `MEM_MAP` lets the access to each byte a .. a+n-1 through (R41). -/
def mapAllowsAll (c : Config) (kind : AccessKind) : Nat → Nat → Bool
  | _, 0 => true
  | a, n + 1 => mapAllows c kind a && mapAllowsAll c kind (a + 1) n

end Sys2Proof.Machine
end

