-- ==== Sys2Proof/Machine/Operands.lean ====
section
/-! DEFINITION. How an instruction's fields become operands (R76), every form the spec gives: constants, shift
distances, the effective address, branch and call targets. -/

namespace Sys2Proof.Machine

/-- const16 of ADDI, SUBI, ANDI, ORI: zero-extended (R75, R76). -/
def constOperand (imm : Imm16) : Word := imm.setWidth 32

/-- const16 of LUI: the constant in the upper half-word, zeros below (R76, R120). -/
def upperOperand (imm : Imm16) : Word := imm ++ 0#16

/-- The shift distance of SLL and SRL: the low 5 bits of Rt (R121, R123). -/
def shiftDistance (v : Word) : Nat := (v.setWidth 5).toNat

/-- The shift distance of SLLI and SRLI: the low 5 bits of const16 (R76, R122, R124). -/
def shiftDistanceImm (imm : Imm16) : Nat := (imm.setWidth 5).toNat

/-- The effective address of a load or store: base plus the sign-extended byte offset, modulo 2^32 (R49, R140). -/
def effAddr (base : Word) (imm : Imm16) : Word := base + imm.signExtend 32

/-- What a relative branch is relative to: the address of the branch itself (R25, D2, log 18). -/
def branchBase (s : State) : Word := s.pc

/-- The target of a conditional branch: base plus 4 times the signed off16, modulo 2^32 (R76, R164). -/
def branchTarget (s : State) (imm : Imm16) : Word := branchBase s + imm.signExtend 32 * 4#32

/-- The target of B: base plus 4 times the signed off26, modulo 2^32 (R76, R163). -/
def jumpTarget (s : State) (imm : Imm26) : Word := branchBase s + imm.signExtend 32 * 4#32

/-- The target of CALL: 4 times the unsigned const26, absolute (R76, R162, 90_conflicts.md C1). -/
def callTarget (imm : Imm26) : Word := imm.setWidth 32 * 4#32

end Sys2Proof.Machine
end

