-- ==== Sys2Proof/Machine/Ops.lean ====
section
/-! DEFINITION. The operations the meanings share: registers, the program counter, memory accesses, taking an
exception and returning from one. -/

namespace Sys2Proof.Machine

/-- What exec and step answer. -/
abbrev Result := Host.Outcome State Fault Refusal

/-! ### Registers -/

/-- `x[r]`: R0 reads as 0 in every state (R21). -/
def readReg (s : State) (r : RegNum) : Word := if r = 0#5 then 0#32 else s.regs[r.toNat]

/-- `x[r] <- v`: a write to R0 is dropped (R21). -/
def writeReg (s : State) (r : RegNum) (v : Word) : State :=
  if r = 0#5 then s else { s with regs := s.regs.set r.toNat v }

/-- The two results of MULU, MUL, DIVU, DIV: the low one to Rd, the high one to Rd+1, lost when Rd is R31
(R104). Each write to R0 is dropped on its own (R21). -/
def writePair (s : State) (rd : RegNum) (lo hi : Word) : State :=
  if rd = 31#5 then writeReg s rd lo else writeReg (writeReg s rd lo) (rd + 1#5) hi

/-! ### The program counter -/

def setPc (s : State) (target : Word) : State := { s with pc := target }

/-- Sequential advance, modulo 2^32 (R26). -/
def advance (s : State) : State := setPc s (s.pc + 4#32)

/-- Write one register and go on to the next instruction: the ending of the ALU instructions and the loads. -/
def finish (s : State) (rd : RegNum) (v : Word) : Result := .next (advance (writeReg s rd v))

/-- Write a pair of registers and go on to the next instruction (R104). -/
def finishPair (s : State) (rd : RegNum) (lo hi : Word) : Result := .next (advance (writePair s rd lo hi))

/-- Go on at a target: the ending of the control transfers; it takes effect at once (R160). -/
def transfer (s : State) (target : Word) : Result := .next (setPc s target)

/-- A target taken from a register or from `epc` must be a multiple of 4 (R28, R161, R191, log 11). -/
def transferChecked (s : State) (target : Word) : Result :=
  if target.aligned then transfer s target else .fault .misalignedTarget

/-- A conditional branch: to its target when the condition holds, else to the next instruction (R164). -/
def branchIf (s : State) (taken : Bool) (imm : Imm16) : Result :=
  if taken then transfer s (branchTarget s imm) else .next (advance s)

/-! ### Memory accesses -/

/-- The sizes of an access (R42). -/
inductive Size where
  | byte
  | half
  | word
  deriving DecidableEq, Repr

def Size.bytes : Size → Nat
  | .byte => 1
  | .half => 2
  | .word => 4

/-- The tests before an access: alignment (R46), then `MEM_MAP` (R41), in that order (R47, R237). -/
def accessFault (s : State) (kind : AccessKind) (addr : Word) (size : Size) : Option Fault :=
  if addr.toNat % size.bytes ≠ 0 then some .misalignedData
  else if mapAllowsAll s.cfg kind addr.toNat size.bytes then none
  else some .accessNotAdmitted

/-- The value an access reads: its bytes assembled by `BYTE_ORDER` (R44, R47), zeros above them. -/
def peek (s : State) (addr : Word) (size : Size) : Word :=
  fromBytes s.cfg.byteOrder (s.mem.readBytes addr.toNat size.bytes)

/-- The state after a store (R48): the value's low bytes laid down by `BYTE_ORDER`, their addresses recorded as
written (R59). -/
def poke (s : State) (addr : Word) (size : Size) (v : Word) : State :=
  { s with
    mem := s.mem.writeBytes addr.toNat (toBytes s.cfg.byteOrder size.bytes v)
    written := addAddrs s.written addr.toNat size.bytes }

/-- A load (R47, R141 to R145): `extend` makes 32 bits of the value read. -/
def load (s : State) (rd : RegNum) (addr : Word) (size : Size) (extend : Word → Word) : Result :=
  match accessFault s .read addr size with
  | some f => .fault f
  | none => finish s rd (extend (peek s addr size))

/-- A store (R48, R146 to R148). -/
def store (s : State) (addr : Word) (size : Size) (v : Word) : Result :=
  match accessFault s .write addr size with
  | some f => .fault f
  | none => .next (advance (poke s addr size v))

/-- "Sign extend into the higher bits" of a byte (R50). -/
def signByte (v : Word) : Word := (v.setWidth 8).signExtend 32
/-- "Sign extend into the higher bits" of a half-word (R50). -/
def signHalf (v : Word) : Word := (v.setWidth 16).signExtend 32
/-- "Zero extend into the higher bits" of a byte (R50). -/
def zeroByte (v : Word) : Word := (v.setWidth 8).setWidth 32
/-- "Zero extend into the higher bits" of a half-word (R50). -/
def zeroHalf (v : Word) : Word := (v.setWidth 16).setWidth 32

/-! ### Exceptions -/

/-- TAKING AN EXCEPTION, as far as the source goes (R230, R233): the resume address is saved internally and
control passes to the handler. The handler's address and which address is saved are `EXC_ENTRY`, open, so they are
arguments. No step of the model calls this (R234, log 15): every condition that might raise an exception is a
named fault instead. DESIGN CHOICE (log 15), both left open by R233 and R235: registers, memory and the halt line stay
as they were; where an address is already saved, an exception inside a handler, the new one takes its place. -/
def takeException (s : State) (resume handler : Word) : State := { s with epc := some resume, pc := handler }

/-- RETURNING FROM AN EXCEPTION (R191, R235): `pc` takes the saved address; nothing else changes. -/
def returnFromException (s : State) : Result :=
  match s.epc with
  | none => .fault .eretNoAddress
  | some target => transferChecked s target

/-! ### The halt line -/

/-- Raise the halt line (R192). `pc` is not specified afterwards (R193, U17): it takes a free word (log 7). -/
def raiseHalt (s : State) : State :=
  { s with halted := true, pc := Config.freeWord s.freeCount, freeCount := s.freeCount + 1 }

/-- What the step of a halted state answers: no step leaves it (R30, R192, U18, log 8). -/
def stuck : Result := .fault .stuckHalted

end Sys2Proof.Machine
end

