-- ==== Sys2Proof/Machine/Arithmetic.lean ====
section
/-! DEFINITION. The meanings of ADD, ADDI, SUB, SUBI, MULU, MUL, DIVU, DIV (spec/40_arithmetic.md). -/

namespace Sys2Proof.Machine

/-- R100 -/
def execAdd (rd rs rt : RegNum) (s : State) : Result := finish s rd (readReg s rs + readReg s rt)

/-- R101 -/
def execAddi (rd rs : RegNum) (imm : Imm16) (s : State) : Result :=
  finish s rd (readReg s rs + constOperand imm)

/-- R102 -/
def execSub (rd rs rt : RegNum) (s : State) : Result := finish s rd (readReg s rs - readReg s rt)

/-- R103 -/
def execSubi (rd rs : RegNum) (imm : Imm16) (s : State) : Result :=
  finish s rd (readReg s rs - constOperand imm)

/-- The 64-bit product of two operands read as unsigned (R105). -/
def unsignedProduct (a b : Word) : BitVec 64 := BitVec.ofNat 64 (a.toNat * b.toNat)

/-- The 64-bit two's-complement product of two operands read as signed (R106). -/
def signedProduct (a b : Word) : BitVec 64 := BitVec.ofInt 64 (a.toInt * b.toInt)

/-- LO, bits 31:0 of a product (R8). -/
def productLo (p : BitVec 64) : Word := p.extractLsb' 0 32

/-- HI, bits 63:32 of a product (R8). -/
def productHi (p : BitVec 64) : Word := p.extractLsb' 32 32

/-- R105 -/
def execMulu (rd rs rt : RegNum) (s : State) : Result :=
  finishPair s rd (productLo (unsignedProduct (readReg s rs) (readReg s rt)))
    (productHi (unsignedProduct (readReg s rs) (readReg s rt)))

/-- R106 -/
def execMul (rd rs rt : RegNum) (s : State) : Result :=
  finishPair s rd (productLo (signedProduct (readReg s rs) (readReg s rt)))
    (productHi (signedProduct (readReg s rs) (readReg s rt)))

/-- Unsigned quotient and remainder (R107); by zero the fault R110 names (log 9). -/
def divideUnsigned (dividend divisor : Word) : Except Fault (Word × Word) :=
  if divisor = 0#32 then .error .divideByZero
  else .ok (BitVec.ofNat 32 (dividend.toNat / divisor.toNat), BitVec.ofNat 32 (dividend.toNat % divisor.toNat))

/-- Signed quotient and remainder (R108), given a rounding: the faults R110 names (log 9), the plain division of
operands that are not negative, and the rounding otherwise (R109 option (a)). -/
def divideSignedWith (rounding : Int → Int → Int × Int) (dividend divisor : Word) : Except Fault (Word × Word) :=
  if divisor = 0#32 then .error .divideByZero
  else if dividend.toInt = -2147483648 ∧ divisor.toInt = -1 then .error .divideOverflow
  else if 0 ≤ dividend.toInt ∧ 0 < divisor.toInt then
    .ok (BitVec.ofNat 32 (dividend.toNat / divisor.toNat), BitVec.ofNat 32 (dividend.toNat % divisor.toNat))
  else
    .ok (BitVec.ofInt 32 (rounding dividend.toInt divisor.toInt).1,
      BitVec.ofInt 32 (rounding dividend.toInt divisor.toInt).2)

/-- Signed quotient and remainder with the machine's own rounding, the open parameter `SDIV_ROUNDING` (log 6). -/
def divideSigned (dividend divisor : Word) : Except Fault (Word × Word) :=
  divideSignedWith Config.sdivRounding dividend divisor

/-- Write quotient and remainder (R104), or stop with the division's fault. -/
def finishDivision (s : State) (rd : RegNum) (r : Except Fault (Word × Word)) : Result :=
  match r with
  | .error f => .fault f
  | .ok (quot, rem) => finishPair s rd quot rem

/-- R107: the dividend is Rs, the divisor Rt (D11, log 19) -/
def execDivu (rd rs rt : RegNum) (s : State) : Result :=
  finishDivision s rd (divideUnsigned (readReg s rs) (readReg s rt))

/-- R108: the dividend is Rs, the divisor Rt (D11, log 19) -/
def execDiv (rd rs rt : RegNum) (s : State) : Result :=
  finishDivision s rd (divideSigned (readReg s rs) (readReg s rt))

end Sys2Proof.Machine
end

