-- ==== Sys2Proof/Machine/Control.lean ====
section
/-! DEFINITION. The meanings of JR, CALL, B and the ten conditional branches (spec/43_control_transfer.md). -/

namespace Sys2Proof.Machine

/-- R161 -/
def execJr (rd : RegNum) (s : State) : Result := transferChecked s (readReg s rd)

/-- R162: R31 takes the address of the next instruction (R22) -/
def execCall (imm : Imm26) (s : State) : Result := transfer (writeReg s 31#5 (s.pc + 4#32)) (callTarget imm)

/-- R163 -/
def execB (imm : Imm26) (s : State) : Result := transfer s (jumpTarget s imm)

/-- R165 -/
def execBeq (rd rs : RegNum) (imm : Imm16) (s : State) : Result :=
  branchIf s (condEq (readReg s rd) (readReg s rs)) imm

/-- R166 -/
def execBne (rd rs : RegNum) (imm : Imm16) (s : State) : Result :=
  branchIf s (condNe (readReg s rd) (readReg s rs)) imm

/-- R167 -/
def execBge (rd rs : RegNum) (imm : Imm16) (s : State) : Result :=
  branchIf s (condGe (readReg s rd) (readReg s rs)) imm

/-- R168 -/
def execBgeu (rd rs : RegNum) (imm : Imm16) (s : State) : Result :=
  branchIf s (condGeu (readReg s rd) (readReg s rs)) imm

/-- R169 -/
def execBgt (rd rs : RegNum) (imm : Imm16) (s : State) : Result :=
  branchIf s (condGt (readReg s rd) (readReg s rs)) imm

/-- R170 -/
def execBgtu (rd rs : RegNum) (imm : Imm16) (s : State) : Result :=
  branchIf s (condGtu (readReg s rd) (readReg s rs)) imm

/-- R171 -/
def execBle (rd rs : RegNum) (imm : Imm16) (s : State) : Result :=
  branchIf s (condLe (readReg s rd) (readReg s rs)) imm

/-- R172 -/
def execBleu (rd rs : RegNum) (imm : Imm16) (s : State) : Result :=
  branchIf s (condLeu (readReg s rd) (readReg s rs)) imm

/-- R173 -/
def execBlt (rd rs : RegNum) (imm : Imm16) (s : State) : Result :=
  branchIf s (condLt (readReg s rd) (readReg s rs)) imm

/-- R174 -/
def execBltu (rd rs : RegNum) (imm : Imm16) (s : State) : Result :=
  branchIf s (condLtu (readReg s rd) (readReg s rs)) imm

end Sys2Proof.Machine
end

