-- ==== Sys2Proof/Machine/LoadStore.lean ====
section
/-! DEFINITION. The meanings of LB, LH, LW, LBU, LHU, SB, SH, SW (spec/42_load_store.md). A load's base is Rs and
its destination Rd; a store's base is Rd and its data Rs (R140). -/

namespace Sys2Proof.Machine

/-- R141 -/
def execLb (rd rs : RegNum) (imm : Imm16) (s : State) : Result :=
  load s rd (effAddr (readReg s rs) imm) .byte signByte

/-- R142 -/
def execLh (rd rs : RegNum) (imm : Imm16) (s : State) : Result :=
  load s rd (effAddr (readReg s rs) imm) .half signHalf

/-- R143 -/
def execLw (rd rs : RegNum) (imm : Imm16) (s : State) : Result :=
  load s rd (effAddr (readReg s rs) imm) .word id

/-- R144 -/
def execLbu (rd rs : RegNum) (imm : Imm16) (s : State) : Result :=
  load s rd (effAddr (readReg s rs) imm) .byte zeroByte

/-- R145 -/
def execLhu (rd rs : RegNum) (imm : Imm16) (s : State) : Result :=
  load s rd (effAddr (readReg s rs) imm) .half zeroHalf

/-- R146 -/
def execSb (rd rs : RegNum) (imm : Imm16) (s : State) : Result :=
  store s (effAddr (readReg s rd) imm) .byte (readReg s rs)

/-- R147 -/
def execSh (rd rs : RegNum) (imm : Imm16) (s : State) : Result :=
  store s (effAddr (readReg s rd) imm) .half (readReg s rs)

/-- R148 -/
def execSw (rd rs : RegNum) (imm : Imm16) (s : State) : Result :=
  store s (effAddr (readReg s rd) imm) .word (readReg s rs)

end Sys2Proof.Machine
end

