-- ==== Sys2Proof/Machine/Logic.lean ====
section
/-! DEFINITION. The meanings of LUI, SLL, SLLI, SRL, SRLI, AND, ANDI, OR, ORI, NOR, XOR (spec/41_logic_shift.md). -/

namespace Sys2Proof.Machine

/-- R120 -/
def execLui (rd : RegNum) (imm : Imm16) (s : State) : Result := finish s rd (upperOperand imm)

/-- R121 -/
def execSll (rd rs rt : RegNum) (s : State) : Result :=
  finish s rd (readReg s rs <<< shiftDistance (readReg s rt))

/-- R122 -/
def execSlli (rd rs : RegNum) (imm : Imm16) (s : State) : Result :=
  finish s rd (readReg s rs <<< shiftDistanceImm imm)

/-- R123 -/
def execSrl (rd rs rt : RegNum) (s : State) : Result :=
  finish s rd (readReg s rs >>> shiftDistance (readReg s rt))

/-- R124 -/
def execSrli (rd rs : RegNum) (imm : Imm16) (s : State) : Result :=
  finish s rd (readReg s rs >>> shiftDistanceImm imm)

/-- R125 -/
def execAnd (rd rs rt : RegNum) (s : State) : Result := finish s rd (readReg s rs &&& readReg s rt)

/-- R126 -/
def execAndi (rd rs : RegNum) (imm : Imm16) (s : State) : Result :=
  finish s rd (readReg s rs &&& constOperand imm)

/-- R127 -/
def execOr (rd rs rt : RegNum) (s : State) : Result := finish s rd (readReg s rs ||| readReg s rt)

/-- R128 -/
def execOri (rd rs : RegNum) (imm : Imm16) (s : State) : Result :=
  finish s rd (readReg s rs ||| constOperand imm)

/-- R129 -/
def execNor (rd rs rt : RegNum) (s : State) : Result := finish s rd (~~~(readReg s rs ||| readReg s rt))

/-- R130 -/
def execXor (rd rs rt : RegNum) (s : State) : Result := finish s rd (readReg s rs ^^^ readReg s rt)

end Sys2Proof.Machine
end

