-- ==== Sys2Proof/Machine/System.lean ====
section
/-! DEFINITION. The meanings of ERET and HALT (spec/44_system.md). Neither is privileged (R190, R245). -/

namespace Sys2Proof.Machine

/-- R191 -/
def execEret (s : State) : Result := returnFromException s

/-- R192 -/
def execHalt (s : State) : Result := .next (raiseHalt s)

end Sys2Proof.Machine
end

