-- ==== Sys2Proof/Machine/Dispatch.lean ====
section
/-! DEFINITION. What each instruction does: one arm per constructor of Instr, each one call of its meaning. -/

namespace Sys2Proof.Machine

def exec (i : Instr) (s : State) : Host.Outcome State Fault Refusal :=
  match i with
  | .add rd rs rt => Sys2Proof.Machine.execAdd rd rs rt s
  | .addi rd rs imm => Sys2Proof.Machine.execAddi rd rs imm s
  | .sub rd rs rt => Sys2Proof.Machine.execSub rd rs rt s
  | .subi rd rs imm => Sys2Proof.Machine.execSubi rd rs imm s
  | .mulu rd rs rt => Sys2Proof.Machine.execMulu rd rs rt s
  | .mul rd rs rt => Sys2Proof.Machine.execMul rd rs rt s
  | .divu rd rs rt => Sys2Proof.Machine.execDivu rd rs rt s
  | .div rd rs rt => Sys2Proof.Machine.execDiv rd rs rt s
  | .lui rd imm => Sys2Proof.Machine.execLui rd imm s
  | .sll rd rs rt => Sys2Proof.Machine.execSll rd rs rt s
  | .slli rd rs imm => Sys2Proof.Machine.execSlli rd rs imm s
  | .srl rd rs rt => Sys2Proof.Machine.execSrl rd rs rt s
  | .srli rd rs imm => Sys2Proof.Machine.execSrli rd rs imm s
  | .and rd rs rt => Sys2Proof.Machine.execAnd rd rs rt s
  | .andi rd rs imm => Sys2Proof.Machine.execAndi rd rs imm s
  | .or rd rs rt => Sys2Proof.Machine.execOr rd rs rt s
  | .ori rd rs imm => Sys2Proof.Machine.execOri rd rs imm s
  | .nor rd rs rt => Sys2Proof.Machine.execNor rd rs rt s
  | .xor rd rs rt => Sys2Proof.Machine.execXor rd rs rt s
  | .lb rd rs imm => Sys2Proof.Machine.execLb rd rs imm s
  | .lh rd rs imm => Sys2Proof.Machine.execLh rd rs imm s
  | .lw rd rs imm => Sys2Proof.Machine.execLw rd rs imm s
  | .lbu rd rs imm => Sys2Proof.Machine.execLbu rd rs imm s
  | .lhu rd rs imm => Sys2Proof.Machine.execLhu rd rs imm s
  | .sb rd rs imm => Sys2Proof.Machine.execSb rd rs imm s
  | .sh rd rs imm => Sys2Proof.Machine.execSh rd rs imm s
  | .sw rd rs imm => Sys2Proof.Machine.execSw rd rs imm s
  | .jr rd => Sys2Proof.Machine.execJr rd s
  | .call imm => Sys2Proof.Machine.execCall imm s
  | .b imm => Sys2Proof.Machine.execB imm s
  | .beq rd rs imm => Sys2Proof.Machine.execBeq rd rs imm s
  | .bne rd rs imm => Sys2Proof.Machine.execBne rd rs imm s
  | .bge rd rs imm => Sys2Proof.Machine.execBge rd rs imm s
  | .bgeu rd rs imm => Sys2Proof.Machine.execBgeu rd rs imm s
  | .bgt rd rs imm => Sys2Proof.Machine.execBgt rd rs imm s
  | .bgtu rd rs imm => Sys2Proof.Machine.execBgtu rd rs imm s
  | .ble rd rs imm => Sys2Proof.Machine.execBle rd rs imm s
  | .bleu rd rs imm => Sys2Proof.Machine.execBleu rd rs imm s
  | .blt rd rs imm => Sys2Proof.Machine.execBlt rd rs imm s
  | .bltu rd rs imm => Sys2Proof.Machine.execBltu rd rs imm s
  | .eret => Sys2Proof.Machine.execEret s
  | .halt => Sys2Proof.Machine.execHalt s

end Sys2Proof.Machine
end

