-- ==== Sys2Proof/Machine/Fetch.lean ====
section
/-! DEFINITION. Fetching and decoding the instruction at `pc` (R57, R59, R82), one step's body, and placing a word
where the next step fetches it. -/

namespace Sys2Proof.Machine

/-- Fetch: the faults in R237's order, then the word assembled by `BYTE_ORDER` (R57, R59). -/
def fetchWord (s : State) : Except Fault Word :=
  if !s.pc.aligned then .error .misalignedFetch
  else if !mapAllowsAll s.cfg .fetch s.pc.toNat 4 then .error .accessNotAdmitted
  else if anyAddr s.written s.pc.toNat 4 then .error .fetchOfModified
  else .ok (peek s s.pc .word)

/-- The fault a decoding error is (R79, R80, R236). -/
def decodeFault : DecodeError → Fault
  | .illegalOpcode => .illegalOpcode
  | .reservedBitsNonzero => .reservedBitsNonzero

/-- The instruction at `pc`, or the fault that its fetch or its decoding raises (R27 steps 1 and 2, R237). -/
def fetchInstr (s : State) : Except Fault Instr :=
  match fetchWord s with
  | .error f => .error f
  | .ok w =>
    match decode w with
    | .error e => .error (decodeFault e)
    | .ok i => .ok i

/-- One step: a halted state is stuck (R30); otherwise fetch, decode, execute (R27). -/
def stepBody (s : State) : Result :=
  if s.halted then stuck
  else
    match fetchInstr s with
    | .error f => .fault f
    | .ok i => exec i s

/-- A memory map that lets the fetch of a .. a+3 through: the given one where it already does. -/
def mapWithFetch (c : Config) (a : Nat) : Config :=
  if mapAllowsAll c .fetch a 4 then c else { c with memMap := ⟨a, 4, false, false, true⟩ :: c.memMap }

/-- The state with a word placed at `pc`, where the next step fetches it (log 26): its four bytes laid down by
`BYTE_ORDER` (R58), not recorded as written by a store, let through for fetch, the halt line down. -/
def placeWord (s : State) (w : Word) : State :=
  { s with
    mem := s.mem.writeBytes s.pc.toNat (toBytes s.cfg.byteOrder 4 w)
    written := s.written.filter fun a => !(s.pc.toNat ≤ a && a < s.pc.toNat + 4)
    cfg := mapWithFetch s.cfg s.pc.toNat
    halted := false }

end Sys2Proof.Machine
end

