-- ==== Sys2Proof/Machine/Step.lean ====
section
/-! DEFINITION. One step of the machine, and the host's way to place an instruction word before it. -/

namespace Sys2Proof.Machine

/-- One step: fetch, decode and execute the instruction at `pc` (R27), as `stepBody` says. -/
def step (s : State) : Host.Outcome State Fault Refusal := stepBody s

/-- `s` with the opcode-table word stored where `step` fetches its next instruction (log 26). -/
def State.withFetchWord (s : State) (nbits w : Nat) : State := placeWord s (tableWord nbits w)

end Sys2Proof.Machine
end

