-- ==== Sys2Proof/Machine/Assembler.lean ====
section
/-! DEFINITION. The assembler's side of the spec (spec/45_pseudo_directives.md), which the CPU never sees: the
operands of an instruction line (R200), the nine pseudo-instructions (R202 to R213), the field of a label (R212) and
what the seven directives lay down (R215 to R222). How a file of lines is assembled is in Machine/Program.lean. -/

namespace Sys2Proof.Machine

/-! ### Instruction lines (R200) -/

def asmR3 (make : RegNum → RegNum → RegNum → Instr) : List Operand → Option Instr
  | [.reg d, .reg s, .reg t] => some (make (BitVec.ofNat 5 d) (BitVec.ofNat 5 s) (BitVec.ofNat 5 t))
  | _ => none

def asmConst (make : RegNum → RegNum → Imm16 → Instr) : List Operand → Option Instr
  | [.reg d, .reg s, .const16 c] => some (make (BitVec.ofNat 5 d) (BitVec.ofNat 5 s) (BitVec.ofNat 16 c))
  | _ => none

/-- A load `OP Rd, off16(Rs)`: the base comes last (R140). -/
def asmLoad (make : RegNum → RegNum → Imm16 → Instr) : List Operand → Option Instr
  | [.reg d, .off16 o, .reg s] => some (make (BitVec.ofNat 5 d) (BitVec.ofNat 5 s) (BitVec.ofInt 16 o))
  | _ => none

/-- A store `OP Rs, off16(Rd)`: data first, base last (R140). -/
def asmStore (make : RegNum → RegNum → Imm16 → Instr) : List Operand → Option Instr
  | [.reg s, .off16 o, .reg d] => some (make (BitVec.ofNat 5 d) (BitVec.ofNat 5 s) (BitVec.ofInt 16 o))
  | _ => none

def asmBranch (make : RegNum → RegNum → Imm16 → Instr) : List Operand → Option Instr
  | [.reg d, .reg s, .off16 o] => some (make (BitVec.ofNat 5 d) (BitVec.ofNat 5 s) (BitVec.ofInt 16 o))
  | _ => none

def asmLui : List Operand → Option Instr
  | [.reg d, .const16 c] => some (.lui (BitVec.ofNat 5 d) (BitVec.ofNat 16 c))
  | _ => none

def asmJr : List Operand → Option Instr
  | [.reg d] => some (.jr (BitVec.ofNat 5 d))
  | _ => none

def asmCall : List Operand → Option Instr
  | [.const26 c] => some (.call (BitVec.ofNat 26 c))
  | _ => none

def asmB : List Operand → Option Instr
  | [.off26 o] => some (.b (BitVec.ofInt 26 o))
  | _ => none

def asmNone (i : Instr) : List Operand → Option Instr
  | [] => some i
  | _ => none

/-- The form of a mnemonic's line (R200). -/
def asmForm : Mnemonic → List Operand → Option Instr
  | .ADD => asmR3 .add
  | .ADDI => asmConst .addi
  | .SUB => asmR3 .sub
  | .SUBI => asmConst .subi
  | .MULU => asmR3 .mulu
  | .MUL => asmR3 .mul
  | .DIVU => asmR3 .divu
  | .DIV => asmR3 .div
  | .LUI => asmLui
  | .SLL => asmR3 .sll
  | .SLLI => asmConst .slli
  | .SRL => asmR3 .srl
  | .SRLI => asmConst .srli
  | .AND => asmR3 .and
  | .ANDI => asmConst .andi
  | .OR => asmR3 .or
  | .ORI => asmConst .ori
  | .NOR => asmR3 .nor
  | .XOR => asmR3 .xor
  | .LB => asmLoad .lb
  | .LH => asmLoad .lh
  | .LW => asmLoad .lw
  | .LBU => asmLoad .lbu
  | .LHU => asmLoad .lhu
  | .SB => asmStore .sb
  | .SH => asmStore .sh
  | .SW => asmStore .sw
  | .JR => asmJr
  | .CALL => asmCall
  | .B => asmB
  | .BEQ => asmBranch .beq
  | .BNE => asmBranch .bne
  | .BGE => asmBranch .bge
  | .BGEU => asmBranch .bgeu
  | .BGT => asmBranch .bgt
  | .BGTU => asmBranch .bgtu
  | .BLE => asmBranch .ble
  | .BLEU => asmBranch .bleu
  | .BLT => asmBranch .blt
  | .BLTU => asmBranch .bltu
  | .ERET => asmNone .eret
  | .HALT => asmNone .halt

/-- The instruction of a line; none where an operand does not fit its field (U21) or the operands are not those of
the mnemonic's form (R200). -/
def assembleLine (mnemonic : Mnemonic) (ops : List Operand) : Option Instr :=
  if ops.all Operand.fits then asmForm mnemonic ops else none

/-- An instruction's mnemonic (R2). -/
def mnemonicOf : Instr → Mnemonic
  | .add .. => .ADD
  | .addi .. => .ADDI
  | .sub .. => .SUB
  | .subi .. => .SUBI
  | .mulu .. => .MULU
  | .mul .. => .MUL
  | .divu .. => .DIVU
  | .div .. => .DIV
  | .lui .. => .LUI
  | .sll .. => .SLL
  | .slli .. => .SLLI
  | .srl .. => .SRL
  | .srli .. => .SRLI
  | .and .. => .AND
  | .andi .. => .ANDI
  | .or .. => .OR
  | .ori .. => .ORI
  | .nor .. => .NOR
  | .xor .. => .XOR
  | .lb .. => .LB
  | .lh .. => .LH
  | .lw .. => .LW
  | .lbu .. => .LBU
  | .lhu .. => .LHU
  | .sb .. => .SB
  | .sh .. => .SH
  | .sw .. => .SW
  | .jr .. => .JR
  | .call .. => .CALL
  | .b .. => .B
  | .beq .. => .BEQ
  | .bne .. => .BNE
  | .bge .. => .BGE
  | .bgeu .. => .BGEU
  | .bgt .. => .BGT
  | .bgtu .. => .BGTU
  | .ble .. => .BLE
  | .bleu .. => .BLEU
  | .blt .. => .BLT
  | .bltu .. => .BLTU
  | .eret => .ERET
  | .halt => .HALT

/-! ### Pseudo-instructions (R202 to R213) -/

/-- The nine pseudo-instructions (R202): they have no encoding and no opcode. -/
inductive Pseudo where
  /-- `NOT Rd, Rs` (R203) -/
  | not (rd rs : RegNum)
  /-- `NOP` (R204) -/
  | nop
  /-- `MOVE Rd, Rs` (R205) -/
  | move (rd rs : RegNum)
  /-- `NEG Rd, Rs` (R206) -/
  | neg (rd rs : RegNum)
  /-- `BEQZ Rd, off16` (R207) -/
  | beqz (rd : RegNum) (imm : Imm16)
  /-- `BNEZ Rd, off16` (R208) -/
  | bnez (rd : RegNum) (imm : Imm16)
  /-- `LLI Rd, const16` (R209) -/
  | lli (rd : RegNum) (imm : Imm16)
  /-- `LI Rd, const32` (R210) -/
  | li (rd : RegNum) (value : Word)
  /-- `RET` (R211) -/
  | ret
  deriving DecidableEq, Repr

/-- The real instructions a pseudo-instruction is translated to (R213). -/
def expandPseudo : Pseudo → List Instr
  | .not d s => [.nor d s s]
  | .nop => [.add 0#5 0#5 0#5]
  | .move d s => [.add d s 0#5]
  | .neg d s => [.sub d 0#5 s]
  | .beqz d o => [.beq d 0#5 o]
  | .bnez d o => [.bne d 0#5 o]
  | .lli d c => [.ori d 0#5 c]
  | .li d v => [.lui d (v.extractLsb' 16 16), .ori d d (v.extractLsb' 0 16)]
  | .ret => [.jr 31#5]

/-- The nine mnemonics (R202). -/
inductive PseudoMnemonic where
  | NOT | NOP | MOVE | NEG | BEQZ | BNEZ | LLI | LI | RET
  deriving DecidableEq, Repr

/-- The form of a pseudo-instruction's line (R203 to R211). -/
def pseudoForm : PseudoMnemonic → List Operand → Option Pseudo
  | .NOT, [.reg d, .reg s] => some (.not (BitVec.ofNat 5 d) (BitVec.ofNat 5 s))
  | .NOP, [] => some .nop
  | .MOVE, [.reg d, .reg s] => some (.move (BitVec.ofNat 5 d) (BitVec.ofNat 5 s))
  | .NEG, [.reg d, .reg s] => some (.neg (BitVec.ofNat 5 d) (BitVec.ofNat 5 s))
  | .BEQZ, [.reg d, .off16 o] => some (.beqz (BitVec.ofNat 5 d) (BitVec.ofInt 16 o))
  | .BNEZ, [.reg d, .off16 o] => some (.bnez (BitVec.ofNat 5 d) (BitVec.ofInt 16 o))
  | .LLI, [.reg d, .const16 c] => some (.lli (BitVec.ofNat 5 d) (BitVec.ofNat 16 c))
  | .LI, [.reg d, .const32 c] => some (.li (BitVec.ofNat 5 d) (BitVec.ofNat 32 c))
  | .RET, [] => some .ret
  | _, _ => none

/-- The pseudo-instruction of a line; none where an operand does not fit its field or is not of the form (U21). -/
def pseudoLine (mnemonic : PseudoMnemonic) (ops : List Operand) : Option Pseudo :=
  if ops.all Operand.fits then pseudoForm mnemonic ops else none

/-! ### Labels (R212) -/

/-- The field of a conditional branch at `a` to the label at `l`: (l - a) / 4, where l - a is a multiple of 4 in
range. DESIGN CHOICE (log 32): l - a is the difference of the two addresses as integers, so a label across the top of
the address space gets no field, though a wrapping branch could reach it; R212 does not say whether l - a wraps. -/
def labelOff16 (a l : Word) : Option Imm16 :=
  let d : Int := (l.toNat : Int) - (a.toNat : Int)
  if d % 4 = 0 ∧ -131072 ≤ d ∧ d ≤ 131068 then some (BitVec.ofInt 16 (d / 4)) else none

/-- The field of a B at `a` to the label at `l`; the difference is that of integers, as for the conditional branches
(DESIGN CHOICE, log 32). -/
def labelOff26 (a l : Word) : Option Imm26 :=
  let d : Int := (l.toNat : Int) - (a.toNat : Int)
  if d % 4 = 0 ∧ -134217728 ≤ d ∧ d ≤ 134217724 then some (BitVec.ofInt 26 (d / 4)) else none

/-- The field of a CALL to the label at `l`: l / 4, with l a multiple of 4 below 0x10000000. -/
def labelConst26 (l : Word) : Option Imm26 :=
  if l.toNat % 4 = 0 ∧ l.toNat < 268435456 then some (BitVec.ofNat 26 (l.toNat / 4)) else none

/-! ### Directives (R215 to R222) -/

/-- The seven directives (R215). A string's characters are those between the double quotes, as written. -/
inductive Directive where
  /-- `.segment label` (R216): where later lines go; nothing is laid down -/
  | segment (label : String)
  /-- `.global label` (R217) -/
  | global (label : String)
  /-- `.define name, value` (R218) -/
  | define (name : String) (value : Int)
  /-- `.alloc n` (R219) -/
  | alloc (n : Nat)
  /-- `.byte b1, .. ,bN` (R220) -/
  | byte (values : List Nat)
  /-- `.word w1, .. ,wN` (R221) -/
  | word (values : List Nat)
  /-- `.string str` (R222) -/
  | string (chars : List Char)
  deriving DecidableEq, Repr

/-- The character a backslash and the next character stand for (R222): the four sequences the source lists. -/
def escapedChar (c : Char) : Option Char :=
  if c = 't' then some (Char.ofNat 9)
  else if c = 'n' then some (Char.ofNat 10)
  else if c.toNat = 92 then some c
  else if c.toNat = 34 then some c
  else none

/-- The characters of a string with its escapes replaced; none at an escape the source does not list, or at a
double quote that is not escaped (log 27). -/
def unescape : List Char → Option (List Char)
  | [] => some []
  | c :: cs =>
    if c.toNat = 92 then
      match cs with
      | [] => none
      | e :: rest => (escapedChar e).bind fun x => (unescape rest).map fun xs => x :: xs
    else if c.toNat = 34 then none
    else (unescape cs).map fun xs => c :: xs

/-- The bytes a directive lays down in successive addresses; none where a value does not fit (U21). `.alloc` lays
down no byte: the content of what it reserves is not stated (R219). The code of a character is `Config.charCode`
(R222, log 27). -/
def directiveBytes (o : ByteOrder) : Directive → Option (List Byte)
  | .segment _ => some []
  | .global _ => some []
  | .define _ _ => some []
  | .alloc _ => some []
  | .byte vs => if vs.all (· < 256) then some (vs.map (BitVec.ofNat 8)) else none
  | .word vs =>
    if vs.all (· < 4294967296) then some (vs.flatMap fun v => toBytes o 4 (BitVec.ofNat 32 v)) else none
  | .string cs => (unescape cs).map fun xs => xs.map Config.charCode ++ [0#8]

/-- How many addresses a directive takes up beyond the bytes it lays down: `.alloc`'s (R219). -/
def directiveReserves : Directive → Nat
  | .alloc n => n
  | .segment _ | .global _ | .define _ _ | .byte _ | .word _ | .string _ => 0

/-- Memory with a directive's bytes laid down from address `a` on (R61), and the address after it. The bytes of a `.word`
wrap modulo 2^32 by R44. DESIGN CHOICE (log 31): so do the bytes of `.byte` and `.string`, the reservation of `.alloc`
and the address after it, of which R61, R219, R220 and R222 say nothing past 0xFFFFFFFF. -/
def layDirective (o : ByteOrder) (m : Memory) (a : Nat) (d : Directive) : Option (Memory × Nat) :=
  (directiveBytes o d).map fun bs => (m.writeBytes a bs, wrapAddr (a + bs.length + directiveReserves d))

/-- Memory with a program's instructions laid down from address `a` on (R58). -/
def layProgram (o : ByteOrder) : Memory → Nat → List Instr → Memory
  | m, _, [] => m
  | m, a, i :: is => layProgram o (m.writeBytes a (encodeBytes o i)) (a + 4) is

/-- A `.define` is well formed: its name is alphanumeric (R218). A `.global` names a label of this file (R217). -/
def directiveOk (labels : List String) : Directive → Bool
  | .define name _ => name.toList.all Char.isAlphanum && !name.toList.isEmpty
  | .global label => labels.contains label
  | .segment _ | .alloc _ | .byte _ | .word _ | .string _ => true

end Sys2Proof.Machine
end

