-- ==== Sys2Proof/Machine/Program.lean ====
section
/-! DEFINITION. How a file of assembly lines becomes memory (spec/45_pseudo_directives.md): named constants in immediate
values and offsets (R200, R218), segments (R216), global labels (R217), and the lines laid down one after the other.
The notation of lines is open (R201), so a line is data, not text. -/

namespace Sys2Proof.Machine

/-! ### Operands with names (R200, R218) -/

/-- An immediate value or an offset as a line gives it: a number, or the name of a constant. -/
inductive Value where
  | number (k : Int)
  | name (n : String)
  deriving DecidableEq, Repr

/-- One operand of a line before names are replaced. -/
inductive SourceOperand where
  /-- `R<n>` -/
  | reg (n : Nat)
  | const16 (v : Value)
  | const26 (v : Value)
  | const32 (v : Value)
  | off16 (v : Value)
  | off26 (v : Value)
  deriving DecidableEq, Repr

/-- The number a value stands for, under the constants defined so far, the latest first. None for a name not defined
before its use (R218); a name defined twice has its latest value (DESIGN CHOICE, log 27). -/
def Value.resolve (constants : List (String × Int)) : Value → Option Int
  | .number k => some k
  | .name n => constants.lookup n

/-- A number as an unsigned constant; a negative one fits no unsigned field (R75, U21). -/
def asUnsigned (k : Int) : Option Nat := if 0 ≤ k then some k.toNat else none

/-- The operand with its name, if it has one, replaced. -/
def resolveOperand (constants : List (String × Int)) : SourceOperand → Option Operand
  | .reg n => some (.reg n)
  | .const16 v => ((v.resolve constants).bind asUnsigned).map .const16
  | .const26 v => ((v.resolve constants).bind asUnsigned).map .const26
  | .const32 v => ((v.resolve constants).bind asUnsigned).map .const32
  | .off16 v => (v.resolve constants).map .off16
  | .off26 v => (v.resolve constants).map .off26

/-- All operands of a line with their names replaced. -/
def resolveOperands (constants : List (String × Int)) : List SourceOperand → Option (List Operand)
  | [] => some []
  | op :: ops =>
    (resolveOperand constants op).bind fun x => (resolveOperands constants ops).map fun xs => x :: xs

/-! ### Lines and the state of an assembly -/

/-- A line of a file. -/
inductive Line where
  /-- a label at the place where it stands; its notation is open (R201) -/
  | label (name : String)
  | instr (mnemonic : Mnemonic) (ops : List SourceOperand)
  | pseudo (mnemonic : PseudoMnemonic) (ops : List SourceOperand)
  | directive (d : Directive)
  deriving DecidableEq, Repr

/-- The assembly of a file, as far as it has come. Which segments exist and where each starts is open (R216), so
`places` and the first `segment` are given from outside (log 33). -/
structure Assembly where
  /-- what has been laid down -/
  mem : Memory
  /-- each segment and the address of its next byte -/
  places : List (String × Nat)
  /-- the segment the next line goes to -/
  segment : String
  /-- the constants defined so far, the latest first (R218) -/
  constants : List (String × Int)
  /-- the labels met so far and their addresses -/
  labels : List (String × Nat)
  /-- the labels declared global (R217) -/
  exported : List String
  deriving DecidableEq, Repr

/-- The address of the next byte of the current segment. -/
def Assembly.here (a : Assembly) : Option Nat := a.places.lookup a.segment

/-- The segments' addresses with one of them changed. -/
def setPlace (segment : String) (next : Nat) : List (String × Nat) → List (String × Nat)
  | [] => []
  | (l, p) :: ps => (if l = segment then (l, next) else (l, p)) :: setPlace segment next ps

/-- The assembly with the current segment taken to a memory and a next address. -/
def Assembly.laid (a : Assembly) (r : Memory × Nat) : Assembly :=
  { a with mem := r.1, places := setPlace a.segment r.2 a.places }

/-- The assembly with instructions laid down in the current segment (R58), 4 bytes each. -/
def Assembly.layInstrs (o : ByteOrder) (a : Assembly) (is : List Instr) : Option Assembly :=
  a.here.map fun p => a.laid (layProgram o a.mem p is, wrapAddr (p + 4 * is.length))

/-- The assembly with a directive's bytes laid down in the current segment (R61). -/
def Assembly.layData (o : ByteOrder) (a : Assembly) (d : Directive) : Option Assembly :=
  a.here.bind fun p => (layDirective o a.mem p d).map a.laid

/-- `.segment label`: later lines go to that segment (R216), which must be one that has a place (log 33). DESIGN CHOICE
(log 33): a segment entered again goes on after the bytes laid down in it before, of which R216 says nothing. -/
def Assembly.enter (a : Assembly) (label : String) : Option Assembly :=
  (a.places.lookup label).map fun _ => { a with segment := label }

/-- What a directive does to the assembly (R216 to R222). -/
def Assembly.direct (o : ByteOrder) (a : Assembly) : Directive → Option Assembly
  | .segment label => a.enter label
  | .global label => some { a with exported := label :: a.exported }
  | .define name value => some { a with constants := (name, value) :: a.constants }
  | .alloc n => a.layData o (.alloc n)
  | .byte vs => a.layData o (.byte vs)
  | .word vs => a.layData o (.word vs)
  | .string cs => a.layData o (.string cs)

/-- The assembly after one line; none where the line is refused (U21). `fileLabels` are the labels of the whole file,
which a `.global` may name before or after its label (R217). DESIGN CHOICE (log 33): instructions and data go to whichever
segment is current, with no check that they are in different ones, which R216 leaves open; a label that a file has
twice is accepted, both entries kept, the latest first, of which R201 and R217 say nothing. -/
def layLine (o : ByteOrder) (fileLabels : List String) (a : Assembly) : Line → Option Assembly
  | .label name => a.here.map fun p => { a with labels := (name, p) :: a.labels }
  | .instr m ops =>
    (resolveOperands a.constants ops).bind fun xs => (assembleLine m xs).bind fun i => a.layInstrs o [i]
  | .pseudo m ops =>
    (resolveOperands a.constants ops).bind fun xs => (pseudoLine m xs).bind fun q => a.layInstrs o (expandPseudo q)
  | .directive d => if directiveOk fileLabels d then a.direct o d else none

/-- The assembly after lines, one after the other. -/
def layLines (o : ByteOrder) (fileLabels : List String) : Assembly → List Line → Option Assembly
  | a, [] => some a
  | a, l :: ls => (layLine o fileLabels a l).bind fun b => layLines o fileLabels b ls

/-- The labels of a file. -/
def labelsOf : List Line → List String
  | [] => []
  | .label name :: ls => name :: labelsOf ls
  | .instr _ _ :: ls => labelsOf ls
  | .pseudo _ _ :: ls => labelsOf ls
  | .directive _ :: ls => labelsOf ls

/-- A file assembled over a memory, given where each segment starts and which segment its first line goes to. -/
def assembleFile (o : ByteOrder) (mem : Memory) (places : List (String × Nat)) (segment : String) (lines : List Line) :
    Option Assembly :=
  layLines o (labelsOf lines)
    { mem := mem, places := places, segment := segment, constants := [], labels := [], exported := [] } lines

end Sys2Proof.Machine
end

