-- ==== Sys2Proof/Safety.lean ====
section
/-! DEFINITION. What claims are stated in: the invariant of the model, the named premises of R262, runs and how they
end (R193), and the frames an instruction keeps. -/

namespace Sys2Proof.Machine

/-! ### The invariant -/

/-- What every step keeps: memory and the written set in their canonical forms, the unused register slot 0 at 0
(R21), `RESET_PC` a multiple of 4 (R28), and `pc` a multiple of 4 while the CPU runs (R28, D5). -/
structure State.Inv (s : State) : Prop where
  memWf : s.mem.wf = true
  writtenWf : addrsWf s.written = true
  slotZero : s.regs[0] = 0#32
  cfgWf : s.cfg.wf = true
  pcAligned : s.halted = false → s.pc.aligned = true

/-- Every byte the run has stored to is one that `MEM_MAP` lets a data write through to. -/
def State.WrittenAllowed (s : State) : Prop := ∀ a ∈ s.written, mapAllows s.cfg .write a = true

/-! ### Launch and the named premises (R261, R262) -/

/-- A launch state (R261, R262): `RESET_PC` a multiple of 4, and any registers, memory and saved address. -/
def State.IsLaunch (s : State) : Prop :=
  ∃ c regs mem epc, c.wf = true ∧ s = State.launch c regs mem epc

/-- The premise `TextNotWritable` (R262): no byte let through for fetch is let through for write. -/
def TextNotWritable (c : Config) : Prop :=
  ∀ a, mapAllows c .fetch a = true → mapAllows c .write a = false

/-- The premise `TextLoaded` (R262): the words lie at base, base+4, .., laid out by `BYTE_ORDER` (R58). -/
def State.TextLoaded (s : State) (base : Nat) (words : List Word) : Prop :=
  ∀ k w, words[k]? = some w → s.mem.readBytes (base + 4 * k) 4 = toBytes s.cfg.byteOrder 4 w

/-! ### Runs (R193) -/

/-- t is reached from s by some number of steps. -/
inductive Steps : State → State → Prop where
  | refl (s : State) : Steps s s
  | tail {s t u : State} (run : Steps s t) (last : step t = .next u) : Steps s u

/-- The run from s ends well: it reaches a state whose halt line is up (R193). -/
def State.EndsWell (s : State) : Prop := ∃ t, Steps s t ∧ t.halted = true

/-- The run from s ends in a model fault, other than standing still in a halted state (R193, R236). -/
def State.EndsInFault (s : State) : Prop := ∃ t f, Steps s t ∧ t.halted = false ∧ step t = .fault f

/-! ### Frames -/

/-- All but registers and `pc` is as before: every byte of memory, the written set, the saved address, the halt line,
the parameters and the model's counter. -/
structure SameOutsideRegs (s t : State) : Prop where
  mem : ∀ a, t.mem.read a = s.mem.read a
  written : t.written = s.written
  epc : t.epc = s.epc
  halted : t.halted = s.halted
  cfg : t.cfg = s.cfg
  freeCount : t.freeCount = s.freeCount

/-- Every register is as before. -/
def SameRegs (s t : State) : Prop := ∀ r, readReg t r = readReg s r

/-- Exactly one register is written, with v, and nothing else: R0 still reads 0, so a write to R0 is dropped (R21). -/
structure WritesReg (s t : State) (rd : RegNum) (v : Word) : Prop where
  zero : readReg t 0#5 = 0#32
  dest : rd ≠ 0#5 → readReg t rd = v
  others : ∀ r, r ≠ rd → readReg t r = readReg s r
  rest : SameOutsideRegs s t

/-- Rd takes lo and Rd+1 takes hi, hi is lost when Rd is R31, a write to R0 is dropped, and nothing else is written
(R104). -/
structure WritesPair (s t : State) (rd : RegNum) (lo hi : Word) : Prop where
  zero : readReg t 0#5 = 0#32
  low : rd ≠ 0#5 → readReg t rd = lo
  high : rd ≠ 31#5 → readReg t (rd + 1#5) = hi
  others : ∀ r, r ≠ rd → (rd ≠ 31#5 → r ≠ rd + 1#5) → readReg t r = readReg s r
  rest : SameOutsideRegs s t

/-- `pc` is at the next instruction, modulo 2^32 (R26). -/
def AtNext (s t : State) : Prop := t.pc.toNat = (s.pc.toNat + 4) % 4294967296

/-- All but registers is the same in two states. -/
structure AgreeOutsideRegs (s s' : State) : Prop where
  pc : s'.pc = s.pc
  epc : s'.epc = s.epc
  halted : s'.halted = s.halted
  mem : s'.mem = s.mem
  written : s'.written = s.written
  cfg : s'.cfg = s.cfg
  freeCount : s'.freeCount = s.freeCount

/-- A store of n bytes at address a: every other byte reads as before, the n addresses are recorded as written (R59),
every register, the saved address, the halt line, the parameters and the model's counter are as before. -/
structure StoresAt (s t : State) (a n : Nat) : Prop where
  regs : SameRegs s t
  outside : ∀ c, c < a ∨ a + n ≤ c → t.mem.read c = s.mem.read c
  written : ∀ c, c ∈ t.written ↔ c ∈ s.written ∨ (a ≤ c ∧ c < a + n)
  epc : t.epc = s.epc
  halted : t.halted = s.halted
  cfg : t.cfg = s.cfg
  freeCount : t.freeCount = s.freeCount

/-- A conditional branch (R164): taken, `pc` is 4 times the signed offset from the branch's own address (R25);
else it is at the next instruction; nothing else changes. -/
structure Branches (s t : State) (imm : Imm16) (cond : Prop) : Prop where
  taken : cond → (t.pc.toNat : Int) = ((s.pc.toNat : Int) + imm.toInt * 4) % 4294967296
  notTaken : ¬cond → AtNext s t
  regs : SameRegs s t
  rest : SameOutsideRegs s t

/-- An assembly goes on from `a` in segment l: memory becomes `mem`, the segment's next byte is at `next`, it is the
current segment, no other segment's address moves, and constants, labels and exports are as before (R216). -/
structure LaidIn (a c : Assembly) (l : String) (mem : Memory) (next : Nat) : Prop where
  mem : c.mem = mem
  current : c.segment = l
  place : c.places.lookup l = some next
  others : ∀ l', l' ≠ l → c.places.lookup l' = a.places.lookup l'
  constants : c.constants = a.constants
  labels : c.labels = a.labels
  exported : c.exported = a.exported

/-! ### Values in memory and words as numbers -/

/-- The byte at an address, modulo 2^32 (R44). -/
def State.byteAt (s : State) (a : Nat) : Byte := s.mem.read (wrapAddr a)

/-- The half-word at an address, its two bytes put together as R44 lays them out. -/
def halfAt (s : State) (a : Nat) : Half :=
  match s.cfg.byteOrder with
  | .little => s.byteAt (a + 1) ++ s.byteAt a
  | .big => s.byteAt a ++ s.byteAt (a + 1)

/-- The word at an address, its four bytes put together as R44 lays them out. -/
def wordAt (s : State) (a : Nat) : Word :=
  match s.cfg.byteOrder with
  | .little => s.byteAt (a + 3) ++ s.byteAt (a + 2) ++ s.byteAt (a + 1) ++ s.byteAt a
  | .big => s.byteAt a ++ s.byteAt (a + 1) ++ s.byteAt (a + 2) ++ s.byteAt (a + 3)

/-- The number of a word of format R3 (R74). -/
def numberR3 (op : Nat) (d s t : RegNum) : Nat :=
  op * 2 ^ 26 + d.toNat * 2 ^ 21 + s.toNat * 2 ^ 16 + t.toNat * 2 ^ 11

/-- The number of a word of format I (R74). -/
def numberI (op : Nat) (d s : RegNum) (imm : Imm16) : Nat :=
  op * 2 ^ 26 + d.toNat * 2 ^ 21 + s.toNat * 2 ^ 16 + imm.toNat

/-! ### Which registers an instruction reads and writes (R24) -/

/-- The registers an instruction reads, the column of R24. -/
def regsRead : Instr → List RegNum
  | .add _ s t | .sub _ s t | .sll _ s t | .srl _ s t | .and _ s t | .or _ s t | .nor _ s t | .xor _ s t
  | .mulu _ s t | .mul _ s t | .divu _ s t | .div _ s t => [s, t]
  | .addi _ s _ | .subi _ s _ | .slli _ s _ | .srli _ s _ | .andi _ s _ | .ori _ s _ => [s]
  | .lui _ _ => []
  | .lb _ s _ | .lh _ s _ | .lw _ s _ | .lbu _ s _ | .lhu _ s _ => [s]
  | .sb d s _ | .sh d s _ | .sw d s _ => [d, s]
  | .jr d => [d]
  | .call _ | .b _ => []
  | .beq d s _ | .bne d s _ | .bge d s _ | .bgeu d s _ | .bgt d s _ | .bgtu d s _ | .ble d s _ | .bleu d s _
  | .blt d s _ | .bltu d s _ => [d, s]
  | .eret | .halt => []

/-- The registers an instruction writes, the column of R24. -/
def regsWritten : Instr → List RegNum
  | .add d _ _ | .sub d _ _ | .sll d _ _ | .srl d _ _ | .and d _ _ | .or d _ _ | .nor d _ _ | .xor d _ _ => [d]
  | .mulu d _ _ | .mul d _ _ | .divu d _ _ | .div d _ _ => if d = 31#5 then [d] else [d, d + 1#5]
  | .addi d _ _ | .subi d _ _ | .slli d _ _ | .srli d _ _ | .andi d _ _ | .ori d _ _ => [d]
  | .lui d _ => [d]
  | .lb d _ _ | .lh d _ _ | .lw d _ _ | .lbu d _ _ | .lhu d _ _ => [d]
  | .sb .. | .sh .. | .sw .. => []
  | .jr _ => []
  | .call _ => [31#5]
  | .b _ => []
  | .beq .. | .bne .. | .bge .. | .bgeu .. | .bgt .. | .bgtu .. | .ble .. | .bleu .. | .blt .. | .bltu .. => []
  | .eret | .halt => []

/-- The instructions that write memory (R42): how many bytes, the base register, the data register, the offset. -/
def storeOf : Instr → Option (Nat × RegNum × RegNum × Imm16)
  | .sb d s o => some (1, d, s, o)
  | .sh d s o => some (2, d, s, o)
  | .sw d s o => some (4, d, s, o)
  | .add .. | .addi .. | .sub .. | .subi .. | .mulu .. | .mul .. | .divu .. | .div .. | .lui .. | .sll .. | .slli ..
  | .srl .. | .srli .. | .and .. | .andi .. | .or .. | .ori .. | .nor .. | .xor .. | .lb .. | .lh .. | .lw ..
  | .lbu .. | .lhu .. | .jr .. | .call .. | .b .. | .beq .. | .bne .. | .bge .. | .bgeu .. | .bgt .. | .bgtu ..
  | .ble .. | .bleu .. | .blt .. | .bltu .. | .eret | .halt => none

end Sys2Proof.Machine
end

