-- ==== Sys2Proof/Certificates/Slice0/Obligations.lean ====
section
/-! DEFINITION. What is stated about the machine, for the provers. OBLIGATIONS.json lists each with its rule.
Where a clause rests on a decision the spec marks as its own, or on a choice of the model, the docstring says so. -/

open Sys2Proof Sys2Proof.Machine

/-! ## Encoding -/

/-- A few words written out from the encodings of the spec, one a format and more, decode to the instructions they
stand for. -/
def Obligations.SpecWordsDecode : Prop :=
  decode 0x00611000#32 = .ok (.add 3#5 1#5 2#5) ∧
  decode 0x80A5FFFF#32 = .ok (.addi 5#5 5#5 0xFFFF#16) ∧
  decode 0x18201122#32 = .ok (.lui 1#5 0x1122#16) ∧
  decode 0x3C41FFFC#32 = .ok (.lw 2#5 1#5 0xFFFC#16) ∧
  decode 0x5022FFFC#32 = .ok (.sw 1#5 2#5 0xFFFC#16) ∧
  decode 0x58A00000#32 = .ok (.jr 5#5) ∧
  decode 0x77FFFFFF#32 = .ok (.call 0x3FFFFFF#26) ∧
  decode 0x6020FFFE#32 = .ok (.bne 1#5 0#5 0xFFFE#16) ∧
  decode 0xFC000000#32 = .ok .halt

/-- Decoding the word of a well-formed instruction gives the instruction back, and so does decoding its four bytes
as they lie in memory under either byte order. -/
def Obligations.DecodeOfEncodeIsTheInstruction : Prop :=
  ∀ i : Instr, i.wellFormed = true →
    decode (encode i) = .ok i ∧ ∀ o : ByteOrder, decode (fromBytes o (encodeBytes o i)) = .ok i

/-- A word that decodes is the word of the instruction it decodes to: no two words decode to one instruction. It holds
because reserved bits are refused, the spec's decision D6 (log 12). -/
def Obligations.EncodeOfDecodeIsTheWord : Prop :=
  ∀ (w : Word) (i : Instr), decode w = .ok i → encode i = w ∧ i.wellFormed = true

/-- A word decodes to the instruction of a row exactly when word & strict_mask == match; with the row's opcode and a
reserved bit set it is ReservedBitsNonzero. The refusal of reserved bits is the spec's decision D6 (log 12). -/
def Obligations.StrictMaskDecidesTheRow : Prop :=
  ∀ (w : Word) (row : Instr),
    ((∃ i, decode w = .ok i ∧ i.matchWord = row.matchWord) ↔ w &&& row.format.strictMask = row.matchWord) ∧
    (w &&& 0xFC000000#32 = row.matchWord → w &&& row.format.strictMask ≠ row.matchWord →
      decode w = .error .reservedBitsNonzero)

/-- A word is an illegal opcode exactly when bits 31:26 are one of the 22 unassigned values, whatever its other bits.
That it is refused is the spec's decision D7 (log 13). -/
def Obligations.UnassignedOpcodesAreIllegal : Prop :=
  ∀ w : Word, decode w = .error .illegalOpcode ↔ w.toNat / 2 ^ 26 ∈ unassignedOpcodes

/-- A line of assembly with an instruction's own mnemonic and operands assembles to that instruction, and a line with
an operand that does not fit its field assembles to nothing (log 27). -/
def Obligations.AssemblyLinesNameTheirInstruction : Prop :=
  (∀ i : Instr, assembleLine (mnemonicOf i) i.operands = some i) ∧
  (∀ (m : Mnemonic) (ops : List Operand), (∃ o ∈ ops, o.fits = false) → assembleLine m ops = none)

/-- The four bytes of a word in memory, least significant first under little and last under big (R44), and the word
that four bytes in memory make (R47). The order is the open parameter `BYTE_ORDER` (D3, log 3). -/
def Obligations.WordBytesByOrder : Prop :=
  ∀ b0 b1 b2 b3 : Byte,
    fromBytes .little [b0, b1, b2, b3] = b3 ++ b2 ++ b1 ++ b0 ∧
    fromBytes .big [b0, b1, b2, b3] = b0 ++ b1 ++ b2 ++ b3 ∧
    toBytes .little 4 (b3 ++ b2 ++ b1 ++ b0) = [b0, b1, b2, b3] ∧
    toBytes .big 4 (b0 ++ b1 ++ b2 ++ b3) = [b0, b1, b2, b3]

/-! ## The step -/

/-- When the CPU runs, `pc` is a multiple of 4, the four bytes at `pc` are let through for fetch and were not stored
to, and they decode to i, the step is exec of i at that very state: nothing moves `pc` before it. -/
def Obligations.StepRunsTheDecodedInstruction : Prop :=
  ∀ (s : State) (i : Instr) (b0 b1 b2 b3 : Byte),
    s.halted = false → s.pc.toNat % 4 = 0 →
    (∀ k, k < 4 → mapAllows s.cfg .fetch (s.pc.toNat + k) = true) →
    (∀ k, k < 4 → s.pc.toNat + k ∉ s.written) →
    s.mem.read s.pc.toNat = b0 → s.mem.read (s.pc.toNat + 1) = b1 →
    s.mem.read (s.pc.toNat + 2) = b2 → s.mem.read (s.pc.toNat + 3) = b3 →
    decodeBytes s.cfg.byteOrder b0 b1 b2 b3 = .ok i →
    step s = exec i s

/-- The faults of fetch and decode, in the order of R237. All are the spec's decisions (D5, D13, D14, D6, D7;
log 12, 13, 14). -/
def Obligations.FetchAndDecodeFaultsInOrder : Prop :=
  ∀ s : State, s.halted = false →
    (s.pc.toNat % 4 ≠ 0 → step s = .fault .misalignedFetch) ∧
    (s.pc.toNat % 4 = 0 → (∃ k, k < 4 ∧ mapAllows s.cfg .fetch (s.pc.toNat + k) = false) →
      step s = .fault .accessNotAdmitted) ∧
    (s.pc.toNat % 4 = 0 → (∀ k, k < 4 → mapAllows s.cfg .fetch (s.pc.toNat + k) = true) →
      ((∃ k, k < 4 ∧ s.pc.toNat + k ∈ s.written) → step s = .fault .fetchOfModified) ∧
      ((∀ k, k < 4 → s.pc.toNat + k ∉ s.written) →
        (decode (wordAt s s.pc.toNat) = .error .illegalOpcode → step s = .fault .illegalOpcode) ∧
        (decode (wordAt s s.pc.toNat) = .error .reservedBitsNonzero → step s = .fault .reservedBitsNonzero)))

/-- The halt line is raised by HALT alone and every step of HALT raises it; no step leaves a state whose halt line is
up. That halt is terminal is the spec's decision D21 (log 8). -/
def Obligations.OnlyHaltRaisesTheHaltLine : Prop :=
  (∀ s t : State, step s = .next t → (t.halted = true ↔ fetchInstr s = .ok .halt)) ∧
  (∀ s t : State, s.halted = true → step s ≠ .next t)

/-- No step changes the open parameters (R35; D13, D14) or the saved exception-resume address, ERET's included. That
`epc` stays is the spec's decision D17 (R29, R191, R234; log 15, and log 28, unsafe for a second ERET). -/
def Obligations.EveryStepKeepsTheParameters : Prop :=
  ∀ s t : State, step s = .next t → t.cfg = s.cfg ∧ t.epc = s.epc

/-- An instruction raises only the faults the table of R236 gives it, and no instruction is refused. The faults are
the spec's decisions (D4, D5, D8, D13, D17; log 9, 10, 11, 28). -/
def Obligations.FaultsOnlyWhereTheRulesRaiseThem : Prop :=
  ∀ (i : Instr) (s : State),
    (∀ r, exec i s ≠ .refused r) ∧
    (∀ f, exec i s = .fault f →
      match f with
      | .accessNotAdmitted => mnemonicOf i ∈ [Mnemonic.LB, .LH, .LW, .LBU, .LHU, .SB, .SH, .SW]
      | .misalignedData => mnemonicOf i ∈ [Mnemonic.LH, .LHU, .LW, .SH, .SW]
      | .divideByZero => mnemonicOf i ∈ [Mnemonic.DIVU, .DIV]
      | .divideOverflow => mnemonicOf i = .DIV
      | .misalignedTarget => mnemonicOf i ∈ [Mnemonic.JR, .ERET]
      | .eretNoAddress => mnemonicOf i = .ERET
      | .misalignedFetch | .fetchOfModified | .illegalOpcode | .reservedBitsNonzero | .stuckHalted => False)

/-! ## Reset and invariants -/

/-- State.reset is a launch state, with the values R261 gives: R0 reads 0, `pc` at `RESET_PC`, a multiple of 4, no
saved address, the halt line down, nothing written. R34 and R261 are the spec's decision D20. -/
def Obligations.ResetLeavesWhatTheSpecGives : Prop :=
  State.reset.IsLaunch ∧ readReg State.reset 0#5 = 0#32 ∧ State.reset.pc = State.reset.cfg.resetPc ∧
  State.reset.pc.toNat % 4 = 0 ∧ State.reset.epc = none ∧ State.reset.halted = false ∧ State.reset.written = []

/-- State.reset meets the invariant, and so does every launch state whose memory is in canonical form and whose
unused register slot 0 holds 0 (the model's own forms, log 5, 25). -/
def Obligations.LaunchMeetsTheInvariant : Prop :=
  State.reset.Inv ∧ ∀ s : State, s.IsLaunch → s.mem.wf = true → s.regs[0] = 0#32 → s.Inv

/-- From every state that meets the invariant, a step gives a state that meets it. -/
def Obligations.EveryStepKeepsTheInvariant : Prop :=
  ∀ s t : State, s.Inv → step s = .next t → t.Inv

/-- Under the premise TextNotWritable, no run from any launch state meets FetchOfModified (the spec's decision D14,
log 14). -/
def Obligations.TextNotWritableExcludesFetchOfModified : Prop :=
  ∀ s t : State, s.IsLaunch → TextNotWritable s.cfg → Steps s t → step t ≠ .fault .fetchOfModified

/-- Two memories in canonical form that read the same everywhere are the same data (the model's own form, log 5). -/
def Obligations.MemoriesThatReadAlikeAreEqual : Prop :=
  ∀ m m' : Memory, m.wf = true → m'.wf = true → (∀ a, m.read a = m'.read a) → m = m'

/-- A word placed where the next step fetches it is what that step runs, from every state whose memory is canonical
and whose `pc` is a multiple of 4 (the model's own device, log 26). -/
def Obligations.PlacedWordIsRunNext : Prop :=
  ∀ (s : State) (w : Nat) (i : Instr), s.mem.wf = true → s.pc.toNat % 4 = 0 →
    decode (BitVec.ofNat 32 w) = .ok i →
    step (s.withFetchWord 32 w) = exec i (s.withFetchWord 32 w)

/-! ## Whole-machine frames -/

/-- Only SB, SH and SW write memory, each only its own bytes at base plus offset; every other instruction leaves every
byte, and the written set, as they were. Memory canonical is the model's invariant (log 5). -/
def Obligations.OnlyStoresChangeMemory : Prop :=
  ∀ (i : Instr) (s t : State), exec i s = .next t →
    (storeOf i = none → (∀ a, t.mem.read a = s.mem.read a) ∧ t.written = s.written) ∧
    (∀ n base data off, storeOf i = some (n, base, data, off) → s.mem.wf = true →
      StoresAt s t (effAddr (readReg s base) off).toNat n)

/-- R24's table as a bound from above: an instruction's outcome depends on no register but those the table says it
reads, and no register changes but those it says it writes. Two states that agree outside the registers and on the
registers read give the same fault, or next states that agree outside the registers and on the registers written. That
each register named is in fact read or written is said by the statements of the instructions' results. -/
def Obligations.RegistersReadAndWritten : Prop :=
  ∀ (i : Instr) (s s' : State), AgreeOutsideRegs s s' → (∀ r ∈ regsRead i, readReg s' r = readReg s r) →
    (∀ f, exec i s = .fault f → exec i s' = .fault f) ∧
    (∀ t, exec i s = .next t → ∃ t', exec i s' = .next t' ∧ AgreeOutsideRegs t t' ∧
      (∀ r ∈ regsWritten i, readReg t' r = readReg t r) ∧
      (∀ r, r ∉ regsWritten i → readReg t r = readReg s r ∧ readReg t' r = readReg s' r))

/-- An instruction whose destination is R0 executes in full and only the register write is dropped: the one-result
instructions leave everything but `pc`; with rd = 0 the two-result multiplications drop LO and write HI to R1. The
per-write reading for two results is the spec's inference in R21; that `pc` advances by 4 is its inference in R26. -/
def Obligations.WritesToR0AreDropped : Prop :=
  ∀ (s : State) (rs rt : RegNum) (imm : Imm16),
    (∀ i ∈ [Instr.add 0#5 rs rt, .addi 0#5 rs imm, .sub 0#5 rs rt, .subi 0#5 rs imm, .lui 0#5 imm, .sll 0#5 rs rt,
        .slli 0#5 rs imm, .srl 0#5 rs rt, .srli 0#5 rs imm, .and 0#5 rs rt, .andi 0#5 rs imm, .or 0#5 rs rt,
        .ori 0#5 rs imm, .nor 0#5 rs rt, .xor 0#5 rs rt],
      exec i s = .next { s with pc := s.pc + 4#32 }) ∧
    (accessFault s .read (effAddr (readReg s rs) imm) .word = none →
      exec (.lw 0#5 rs imm) s = .next { s with pc := s.pc + 4#32 }) ∧
    (∃ t hi, exec (.mulu 0#5 rs rt) s = .next t ∧ WritesReg s t 1#5 hi ∧ AtNext s t ∧
      hi.toNat = (readReg s rs).toNat * (readReg s rt).toNat / 2 ^ 32)

/-! ## Arithmetic -/

/-- ADD, ADDI, SUB, SUBI (R100 to R103): encoding, completion in every state, the result modulo 2^32, for ADD the
signed sum where it is in range, the frame. -/
def Obligations.AddAndSubtract : Prop :=
  ∀ (s : State) (rd rs rt : RegNum) (imm : Imm16),
    ((encode (.add rd rs rt)).toNat = numberR3 0b000000 rd rs rt ∧
      ∃ t v, exec (.add rd rs rt) s = .next t ∧ WritesReg s t rd v ∧ AtNext s t ∧
        v.toNat = ((readReg s rs).toNat + (readReg s rt).toNat) % 2 ^ 32 ∧
        (-2 ^ 31 ≤ (readReg s rs).toInt + (readReg s rt).toInt →
          (readReg s rs).toInt + (readReg s rt).toInt ≤ 2 ^ 31 - 1 →
          v.toInt = (readReg s rs).toInt + (readReg s rt).toInt)) ∧
    ((encode (.addi rd rs imm)).toNat = numberI 0b100000 rd rs imm ∧
      ∃ t v, exec (.addi rd rs imm) s = .next t ∧ WritesReg s t rd v ∧ AtNext s t ∧
        v.toNat = ((readReg s rs).toNat + imm.toNat) % 2 ^ 32) ∧
    ((encode (.sub rd rs rt)).toNat = numberR3 0b000001 rd rs rt ∧
      ∃ t v, exec (.sub rd rs rt) s = .next t ∧ WritesReg s t rd v ∧ AtNext s t ∧
        (v.toNat : Int) = ((readReg s rs).toNat - (readReg s rt).toNat : Int) % 2 ^ 32) ∧
    ((encode (.subi rd rs imm)).toNat = numberI 0b100001 rd rs imm ∧
      ∃ t v, exec (.subi rd rs imm) s = .next t ∧ WritesReg s t rd v ∧ AtNext s t ∧
        (v.toNat : Int) = ((readReg s rs).toNat - imm.toNat : Int) % 2 ^ 32)

/-- MULU and MUL (R105, R106): encoding, completion in every state, the exact 64-bit product in Rd+1 and Rd, the low
results equal, the frame. -/
def Obligations.Multiply : Prop :=
  ∀ (s : State) (rd rs rt : RegNum),
    ((encode (.mulu rd rs rt)).toNat = numberR3 0b000010 rd rs rt ∧
      ∃ t lo hi, exec (.mulu rd rs rt) s = .next t ∧ WritesPair s t rd lo hi ∧ AtNext s t ∧
        hi.toNat * 2 ^ 32 + lo.toNat = (readReg s rs).toNat * (readReg s rt).toNat) ∧
    ((encode (.mul rd rs rt)).toNat = numberR3 0b000011 rd rs rt ∧
      ∃ t lo hi, exec (.mul rd rs rt) s = .next t ∧ WritesPair s t rd lo hi ∧ AtNext s t ∧
        hi.toInt * 2 ^ 32 + lo.toNat = (readReg s rs).toInt * (readReg s rt).toInt) ∧
    (∀ t u, exec (.mulu rd rs rt) s = .next t → exec (.mul rd rs rt) s = .next u → readReg t rd = readReg u rd)

/-- DIVU (R107): with a divisor that is not 0 it completes with floor quotient and remainder; by 0 it raises
DivideByZero (the spec's decision D8, log 9). Rs is the dividend (D11, log 19). -/
def Obligations.DivideUnsigned : Prop :=
  ∀ (s : State) (rd rs rt : RegNum),
    (encode (.divu rd rs rt)).toNat = numberR3 0b000100 rd rs rt ∧
    (readReg s rt ≠ 0#32 →
      ∃ t quot rem, exec (.divu rd rs rt) s = .next t ∧ WritesPair s t rd quot rem ∧ AtNext s t ∧
        quot.toNat * (readReg s rt).toNat + rem.toNat = (readReg s rs).toNat ∧
        rem.toNat < (readReg s rt).toNat) ∧
    (readReg s rt = 0#32 → exec (.divu rd rs rt) s = .fault .divideByZero)

/-- DIV (R108): the two faults (D8, log 9), the plain division of operands that are not negative, and otherwise the
open SDIV_ROUNDING reduced to 32 bits (D9, log 6), whatever it is. Rs is the dividend (D11, log 19). -/
def Obligations.DivideSigned : Prop :=
  ∀ (s : State) (rd rs rt : RegNum),
    (encode (.div rd rs rt)).toNat = numberR3 0b000101 rd rs rt ∧
    ((readReg s rt).toInt = 0 → exec (.div rd rs rt) s = .fault .divideByZero) ∧
    ((readReg s rs).toInt = -2 ^ 31 → (readReg s rt).toInt = -1 → exec (.div rd rs rt) s = .fault .divideOverflow) ∧
    ((readReg s rt).toInt ≠ 0 → ¬((readReg s rs).toInt = -2 ^ 31 ∧ (readReg s rt).toInt = -1) →
      ∃ t quot rem, exec (.div rd rs rt) s = .next t ∧ WritesPair s t rd quot rem ∧ AtNext s t ∧
        (0 ≤ (readReg s rs).toInt → 0 < (readReg s rt).toInt →
          quot.toInt * (readReg s rt).toInt + rem.toInt = (readReg s rs).toInt ∧
          0 ≤ rem.toInt ∧ rem.toInt < (readReg s rt).toInt) ∧
        ((readReg s rs).toInt < 0 ∨ (readReg s rt).toInt < 0 →
          (quot.toNat : Int) = (Config.sdivRounding (readReg s rs).toInt (readReg s rt).toInt).1 % 2 ^ 32 ∧
          (rem.toNat : Int) = (Config.sdivRounding (readReg s rs).toInt (readReg s rt).toInt).2 % 2 ^ 32))

/-- R109's two named candidates: under each, a quotient and a remainder with a = quot*b + rem and |rem| < |b|, the
remainder with the sign R109's table gives; they agree whenever b divides a or both have the same sign. The rounding
is an argument, since the machine's own is open (log 6). -/
def Obligations.SignedDivisionCandidates : Prop :=
  ∀ (f g : Int → Int → Int × Int) (a b : Word), SdivTruncates f → SdivFloors g →
    b.toInt ≠ 0 → ¬(a.toInt = -2 ^ 31 ∧ b.toInt = -1) →
    ∃ q r q' r', divideSignedWith f a b = .ok (q, r) ∧ divideSignedWith g a b = .ok (q', r') ∧
      a.toInt = q.toInt * b.toInt + r.toInt ∧ |r.toInt| < |b.toInt| ∧
      (r.toInt = 0 ∨ r.toInt.sign = a.toInt.sign) ∧
      a.toInt = q'.toInt * b.toInt + r'.toInt ∧ |r'.toInt| < |b.toInt| ∧
      (r'.toInt = 0 ∨ r'.toInt.sign = b.toInt.sign) ∧
      (b.toInt ∣ a.toInt ∨ a.toInt.sign = b.toInt.sign → q = q' ∧ r = r')

/-- Identities of R111 (marked there as derived): ADD of the same registers in either order is the same, and SUBI then
ADDI of the same constant restores the source's value; with Rd = R0 it reads 0 (R21). -/
def Obligations.ArithmeticIdentities : Prop :=
  ∀ (s : State) (rd rs rt : RegNum) (imm : Imm16),
    exec (.add rd rs rt) s = exec (.add rd rt rs) s ∧
    (∃ t u, exec (.subi rd rs imm) s = .next t ∧ exec (.addi rd rd imm) t = .next u ∧
      readReg u rd = if rd = 0#5 then 0#32 else readReg s rs)

/-! ## Logic and shifts -/

/-- AND, ANDI, OR, ORI, NOR, XOR (R125 to R130), bit by bit, the immediates zero-extended: encoding, completion in every
state, the result, the frame. -/
def Obligations.LogicBitByBit : Prop :=
  ∀ (s : State) (rd rs rt : RegNum) (imm : Imm16),
    ((encode (.and rd rs rt)).toNat = numberR3 0b001001 rd rs rt ∧
      ∃ t v, exec (.and rd rs rt) s = .next t ∧ WritesReg s t rd v ∧ AtNext s t ∧
        ∀ i, v.getLsbD i = ((readReg s rs).getLsbD i && (readReg s rt).getLsbD i)) ∧
    ((encode (.andi rd rs imm)).toNat = numberI 0b101001 rd rs imm ∧
      ∃ t v, exec (.andi rd rs imm) s = .next t ∧ WritesReg s t rd v ∧ AtNext s t ∧
        ∀ i, v.getLsbD i = ((readReg s rs).getLsbD i && imm.getLsbD i)) ∧
    ((encode (.or rd rs rt)).toNat = numberR3 0b001010 rd rs rt ∧
      ∃ t v, exec (.or rd rs rt) s = .next t ∧ WritesReg s t rd v ∧ AtNext s t ∧
        ∀ i, v.getLsbD i = ((readReg s rs).getLsbD i || (readReg s rt).getLsbD i)) ∧
    ((encode (.ori rd rs imm)).toNat = numberI 0b101010 rd rs imm ∧
      ∃ t v, exec (.ori rd rs imm) s = .next t ∧ WritesReg s t rd v ∧ AtNext s t ∧
        ∀ i, v.getLsbD i = ((readReg s rs).getLsbD i || imm.getLsbD i)) ∧
    ((encode (.nor rd rs rt)).toNat = numberR3 0b001011 rd rs rt ∧
      ∃ t v, exec (.nor rd rs rt) s = .next t ∧ WritesReg s t rd v ∧ AtNext s t ∧
        ∀ i, i < 32 → v.getLsbD i = !((readReg s rs).getLsbD i || (readReg s rt).getLsbD i)) ∧
    ((encode (.xor rd rs rt)).toNat = numberR3 0b001100 rd rs rt ∧
      ∃ t v, exec (.xor rd rs rt) s = .next t ∧ WritesReg s t rd v ∧ AtNext s t ∧
        ∀ i, v.getLsbD i = ((readReg s rs).getLsbD i != (readReg s rt).getLsbD i))

/-- LUI, SLL, SLLI, SRL, SRLI (R120 to R124): encoding, completion in every state, the result as a number, only the low
5 bits of the amount used, the frame. -/
def Obligations.ShiftsAndLoadUpper : Prop :=
  ∀ (s : State) (rd rs rt : RegNum) (imm : Imm16),
    ((encode (.lui rd imm)).toNat = numberI 0b000110 rd 0#5 imm ∧
      ∃ t v, exec (.lui rd imm) s = .next t ∧ WritesReg s t rd v ∧ AtNext s t ∧ v.toNat = imm.toNat * 2 ^ 16) ∧
    ((encode (.sll rd rs rt)).toNat = numberR3 0b000111 rd rs rt ∧
      ∃ t v, exec (.sll rd rs rt) s = .next t ∧ WritesReg s t rd v ∧ AtNext s t ∧
        v.toNat = (readReg s rs).toNat * 2 ^ ((readReg s rt).toNat % 32) % 2 ^ 32) ∧
    ((encode (.slli rd rs imm)).toNat = numberI 0b101011 rd rs imm ∧
      ∃ t v, exec (.slli rd rs imm) s = .next t ∧ WritesReg s t rd v ∧ AtNext s t ∧
        v.toNat = (readReg s rs).toNat * 2 ^ (imm.toNat % 32) % 2 ^ 32) ∧
    ((encode (.srl rd rs rt)).toNat = numberR3 0b001000 rd rs rt ∧
      ∃ t v, exec (.srl rd rs rt) s = .next t ∧ WritesReg s t rd v ∧ AtNext s t ∧
        v.toNat = (readReg s rs).toNat / 2 ^ ((readReg s rt).toNat % 32)) ∧
    ((encode (.srli rd rs imm)).toNat = numberI 0b101100 rd rs imm ∧
      ∃ t v, exec (.srli rd rs imm) s = .next t ∧ WritesReg s t rd v ∧ AtNext s t ∧
        v.toNat = (readReg s rs).toNat / 2 ^ (imm.toNat % 32))

/-! ## Loads and stores -/

/-- The effective address is the base plus the signed byte offset modulo 2^32 (R49, R140; the wrap is the spec's
decision D12, log 20). -/
def Obligations.EffectiveAddressIsBasePlusSignedOffset : Prop :=
  ∀ (base : Word) (imm : Imm16),
    ((effAddr base imm).toNat : Int) = ((base.toNat : Int) + imm.toInt) % 2 ^ 32

/-- LB, LBU, LH, LHU, LW (R141 to R145) complete on every aligned access MEM_MAP lets through: the value in memory at
base plus offset, assembled by BYTE_ORDER, sign- or zero-extended, in Rd; the frame. Alignment, admission and byte
order are the spec's decisions D4, D13, D3 (log 10, 4, 3). -/
def Obligations.LoadsComplete : Prop :=
  ∀ (s : State) (rd rs : RegNum) (imm : Imm16) (a : Nat), a = (effAddr (readReg s rs) imm).toNat →
    (mapAllows s.cfg .read a = true →
      ((encode (.lb rd rs imm)).toNat = numberI 0b001101 rd rs imm ∧
        ∃ t v, exec (.lb rd rs imm) s = .next t ∧ WritesReg s t rd v ∧ AtNext s t ∧
          v.toInt = (s.mem.read a).toInt) ∧
      ((encode (.lbu rd rs imm)).toNat = numberI 0b010000 rd rs imm ∧
        ∃ t v, exec (.lbu rd rs imm) s = .next t ∧ WritesReg s t rd v ∧ AtNext s t ∧
          v.toNat = (s.mem.read a).toNat)) ∧
    (a % 2 = 0 → (∀ k, k < 2 → mapAllows s.cfg .read (a + k) = true) →
      ((encode (.lh rd rs imm)).toNat = numberI 0b001110 rd rs imm ∧
        ∃ t v, exec (.lh rd rs imm) s = .next t ∧ WritesReg s t rd v ∧ AtNext s t ∧ v.toInt = (halfAt s a).toInt) ∧
      ((encode (.lhu rd rs imm)).toNat = numberI 0b010001 rd rs imm ∧
        ∃ t v, exec (.lhu rd rs imm) s = .next t ∧ WritesReg s t rd v ∧ AtNext s t ∧
          v.toNat = (halfAt s a).toNat)) ∧
    (a % 4 = 0 → (∀ k, k < 4 → mapAllows s.cfg .read (a + k) = true) →
      (encode (.lw rd rs imm)).toNat = numberI 0b001111 rd rs imm ∧
        ∃ t, exec (.lw rd rs imm) s = .next t ∧ WritesReg s t rd (wordAt s a) ∧ AtNext s t)

/-- SB, SH, SW (R146 to R148) complete on every aligned access MEM_MAP lets through, from every state whose memory is
canonical: the low bytes of Rs at base Rd plus offset, laid out by BYTE_ORDER, and every other byte, register and special
state as before. Alignment, admission and byte order are the spec's decisions D4, D13, D3 (log 10, 4, 3). -/
def Obligations.StoresComplete : Prop :=
  ∀ (s : State) (rd rs : RegNum) (imm : Imm16) (a : Nat), a = (effAddr (readReg s rd) imm).toNat →
    s.mem.wf = true →
    (mapAllows s.cfg .write a = true →
      (encode (.sb rd rs imm)).toNat = numberI 0b010010 rd rs imm ∧
      ∃ t, exec (.sb rd rs imm) s = .next t ∧ StoresAt s t a 1 ∧ AtNext s t ∧
        t.mem.read a = (readReg s rs).extractLsb' 0 8) ∧
    (a % 2 = 0 → (∀ k, k < 2 → mapAllows s.cfg .write (a + k) = true) →
      (encode (.sh rd rs imm)).toNat = numberI 0b010011 rd rs imm ∧
      ∃ t, exec (.sh rd rs imm) s = .next t ∧ StoresAt s t a 2 ∧ AtNext s t ∧
        halfAt t a = (readReg s rs).extractLsb' 0 16) ∧
    (a % 4 = 0 → (∀ k, k < 4 → mapAllows s.cfg .write (a + k) = true) →
      (encode (.sw rd rs imm)).toNat = numberI 0b010100 rd rs imm ∧
      ∃ t, exec (.sw rd rs imm) s = .next t ∧ StoresAt s t a 4 ∧ AtNext s t ∧
        wordAt t a = readReg s rs)

/-- Where the loads and stores stop (R46, R47, R48): MisalignedData first, then AccessNotAdmitted. Both are the spec's
decisions (D4, D13; log 10, 4). -/
def Obligations.AccessFaultsInOrder : Prop :=
  ∀ (s : State) (rd rs : RegNum) (imm : Imm16),
    (∀ a, a = (effAddr (readReg s rs) imm).toNat →
      (∀ i ∈ [Instr.lb rd rs imm, .lbu rd rs imm],
        mapAllows s.cfg .read a = false → exec i s = .fault .accessNotAdmitted) ∧
      (∀ i ∈ [Instr.lh rd rs imm, .lhu rd rs imm],
        (a % 2 ≠ 0 → exec i s = .fault .misalignedData) ∧
        (a % 2 = 0 → (∃ k, k < 2 ∧ mapAllows s.cfg .read (a + k) = false) →
          exec i s = .fault .accessNotAdmitted)) ∧
      (a % 4 ≠ 0 → exec (.lw rd rs imm) s = .fault .misalignedData) ∧
      (a % 4 = 0 → (∃ k, k < 4 ∧ mapAllows s.cfg .read (a + k) = false) →
        exec (.lw rd rs imm) s = .fault .accessNotAdmitted)) ∧
    (∀ a, a = (effAddr (readReg s rd) imm).toNat →
      (mapAllows s.cfg .write a = false → exec (.sb rd rs imm) s = .fault .accessNotAdmitted) ∧
      (a % 2 ≠ 0 → exec (.sh rd rs imm) s = .fault .misalignedData) ∧
      (a % 2 = 0 → (∃ k, k < 2 ∧ mapAllows s.cfg .write (a + k) = false) →
        exec (.sh rd rs imm) s = .fault .accessNotAdmitted) ∧
      (a % 4 ≠ 0 → exec (.sw rd rs imm) s = .fault .misalignedData) ∧
      (a % 4 = 0 → (∃ k, k < 4 ∧ mapAllows s.cfg .write (a + k) = false) →
        exec (.sw rd rs imm) s = .fault .accessNotAdmitted))

/-- R149 (1), marked there as derived, under both byte orders: a load of the width and the effective address of the store
just made returns what was stored: SW then LW the register, SH then LHU and LH its low half-word, SB then LBU and LB its
low byte; a load into R0 drops it (R21). It rests on memory being plain storage, the spec's decision D16 (R52, log 30). -/
def Obligations.StoreThenLoadReturnsTheValue : Prop :=
  ∀ (s t : State) (rb rs rb' rd : RegNum) (off off' : Imm16) (v : Word), s.mem.wf = true → v = readReg s rs →
    effAddr (readReg t rb') off' = effAddr (readReg s rb) off →
    (exec (.sw rb rs off) s = .next t → accessFault t .read (effAddr (readReg t rb') off') .word = none →
      ∃ u, exec (.lw rd rb' off') t = .next u ∧ readReg u rd = if rd = 0#5 then 0#32 else v) ∧
    (exec (.sh rb rs off) s = .next t → accessFault t .read (effAddr (readReg t rb') off') .half = none →
      (∃ u, exec (.lhu rd rb' off') t = .next u ∧
        readReg u rd = if rd = 0#5 then 0#32 else (v.setWidth 16).setWidth 32) ∧
      (∃ u, exec (.lh rd rb' off') t = .next u ∧
        readReg u rd = if rd = 0#5 then 0#32 else (v.setWidth 16).signExtend 32)) ∧
    (exec (.sb rb rs off) s = .next t → accessFault t .read (effAddr (readReg t rb') off') .byte = none →
      (∃ u, exec (.lbu rd rb' off') t = .next u ∧
        readReg u rd = if rd = 0#5 then 0#32 else (v.setWidth 8).setWidth 32) ∧
      (∃ u, exec (.lb rd rb' off') t = .next u ∧
        readReg u rd = if rd = 0#5 then 0#32 else (v.setWidth 8).signExtend 32))

/-- R45, marked there as derived: after SW of a word, the byte at its address is its low byte under little and its high
byte under big, which LBU loads, and the half-word two above is its high half under little and its low half under big,
which LHU loads, where MEM_MAP lets the load through. The byte order is open (D3, log 3), memory plain storage (D16, log
30). -/
def Obligations.NarrowLoadSeesTheStoredWord : Prop :=
  ∀ (s t : State) (rb rs rb' rd : RegNum) (off off' : Imm16) (a : Nat) (lowest : Byte) (upper : Half),
    s.mem.wf = true → a = (effAddr (readReg s rb) off).toNat → exec (.sw rb rs off) s = .next t →
    lowest = (match s.cfg.byteOrder with
      | .little => (readReg s rs).extractLsb' 0 8
      | .big => (readReg s rs).extractLsb' 24 8) →
    upper = (match s.cfg.byteOrder with
      | .little => (readReg s rs).extractLsb' 16 16
      | .big => (readReg s rs).extractLsb' 0 16) →
    t.mem.read a = lowest ∧ halfAt t (a + 2) = upper ∧
    ((effAddr (readReg t rb') off').toNat = a → mapAllows t.cfg .read a = true →
      ∃ u, exec (.lbu rd rb' off') t = .next u ∧ readReg u rd = if rd = 0#5 then 0#32 else lowest.setWidth 32) ∧
    ((effAddr (readReg t rb') off').toNat = a + 2 →
      mapAllows t.cfg .read (a + 2) = true → mapAllows t.cfg .read (a + 3) = true →
      ∃ u, exec (.lhu rd rb' off') t = .next u ∧ readReg u rd = if rd = 0#5 then 0#32 else upper.setWidth 32)

/-! ## Control transfers -/

/-- JR (R161): to a target that is a multiple of 4 it completes with the whole register in `pc` and nothing else
changed; to another it raises MisalignedTarget (the spec's decision D5, log 11). -/
def Obligations.JumpRegister : Prop :=
  ∀ (s : State) (rd : RegNum),
    (encode (.jr rd)).toNat = 0b010110 * 2 ^ 26 + rd.toNat * 2 ^ 21 ∧
    ((readReg s rd).toNat % 4 = 0 →
      ∃ t, exec (.jr rd) s = .next t ∧ t.pc = readReg s rd ∧ SameRegs s t ∧ SameOutsideRegs s t) ∧
    ((readReg s rd).toNat % 4 ≠ 0 → exec (.jr rd) s = .fault .misalignedTarget)

/-- CALL (R162): completes in every state, the address of the next instruction in R31, `pc` at 4 times the unsigned
field, nothing else changed. -/
def Obligations.CallLinksAndJumps : Prop :=
  ∀ (s : State) (imm : Imm26),
    (encode (.call imm)).toNat = 0b011101 * 2 ^ 26 + imm.toNat ∧
    ∃ t link, exec (.call imm) s = .next t ∧ WritesReg s t 31#5 link ∧
      link.toNat = (s.pc.toNat + 4) % 2 ^ 32 ∧ t.pc.toNat = imm.toNat * 4

/-- B (R163): completes in every state, `pc` at 4 times the signed field from the branch's own address (the base is the
spec's decision D2, log 18; the wrap D12, log 20), nothing else changed. -/
def Obligations.BranchAlways : Prop :=
  ∀ (s : State) (imm : Imm26),
    (encode (.b imm)).toNat = 0b010101 * 2 ^ 26 + imm.toNat ∧
    ∃ t, exec (.b imm) s = .next t ∧ SameRegs s t ∧ SameOutsideRegs s t ∧
      (t.pc.toNat : Int) = ((s.pc.toNat : Int) + imm.toInt * 4) % 2 ^ 32

/-- The ten conditional branches (R164 to R174) complete in every state: taken exactly on their condition on Rd and Rs,
nothing but `pc` changed. The base of the target is the spec's decision D2 (log 18), the wrap D12 (log 20). -/
def Obligations.ConditionalBranches : Prop :=
  ∀ (s : State) (rd rs : RegNum) (imm : Imm16) (a b : Word), a = readReg s rd → b = readReg s rs →
    (∃ t, exec (.beq rd rs imm) s = .next t ∧ Branches s t imm (a = b)) ∧
    (∃ t, exec (.bne rd rs imm) s = .next t ∧ Branches s t imm (a ≠ b)) ∧
    (∃ t, exec (.bge rd rs imm) s = .next t ∧ Branches s t imm (a.toInt ≥ b.toInt)) ∧
    (∃ t, exec (.bgeu rd rs imm) s = .next t ∧ Branches s t imm (a.toNat ≥ b.toNat)) ∧
    (∃ t, exec (.bgt rd rs imm) s = .next t ∧ Branches s t imm (a.toInt > b.toInt)) ∧
    (∃ t, exec (.bgtu rd rs imm) s = .next t ∧ Branches s t imm (a.toNat > b.toNat)) ∧
    (∃ t, exec (.ble rd rs imm) s = .next t ∧ Branches s t imm (a.toInt ≤ b.toInt)) ∧
    (∃ t, exec (.bleu rd rs imm) s = .next t ∧ Branches s t imm (a.toNat ≤ b.toNat)) ∧
    (∃ t, exec (.blt rd rs imm) s = .next t ∧ Branches s t imm (a.toInt < b.toInt)) ∧
    (∃ t, exec (.bltu rd rs imm) s = .next t ∧ Branches s t imm (a.toNat < b.toNat))

/-- The encodings of the conditional branches (R165 to R174). -/
def Obligations.ConditionalBranchEncodings : Prop :=
  ∀ (rd rs : RegNum) (imm : Imm16),
    (encode (.beq rd rs imm)).toNat = numberI 0b010111 rd rs imm ∧
    (encode (.bne rd rs imm)).toNat = numberI 0b011000 rd rs imm ∧
    (encode (.bge rd rs imm)).toNat = numberI 0b011001 rd rs imm ∧
    (encode (.bgeu rd rs imm)).toNat = numberI 0b100010 rd rs imm ∧
    (encode (.bgt rd rs imm)).toNat = numberI 0b011010 rd rs imm ∧
    (encode (.bgtu rd rs imm)).toNat = numberI 0b100011 rd rs imm ∧
    (encode (.ble rd rs imm)).toNat = numberI 0b011011 rd rs imm ∧
    (encode (.bleu rd rs imm)).toNat = numberI 0b100100 rd rs imm ∧
    (encode (.blt rd rs imm)).toNat = numberI 0b011100 rd rs imm ∧
    (encode (.bltu rd rs imm)).toNat = numberI 0b100101 rd rs imm

/-- R175's laws (marked there as derived): exactly one of BLT, BEQ, BGT is taken, and of BLTU, BEQ, BGTU; each
comparison negates its opposite; signed and unsigned forms differ exactly when bits 31 differ. -/
def Obligations.ConditionsAreOrders : Prop :=
  ∀ a b : Word,
    (condLt a b = true ∧ condEq a b = false ∧ condGt a b = false ∨
      condLt a b = false ∧ condEq a b = true ∧ condGt a b = false ∨
      condLt a b = false ∧ condEq a b = false ∧ condGt a b = true) ∧
    (condLtu a b = true ∧ condEq a b = false ∧ condGtu a b = false ∨
      condLtu a b = false ∧ condEq a b = true ∧ condGtu a b = false ∨
      condLtu a b = false ∧ condEq a b = false ∧ condGtu a b = true) ∧
    condGe a b = !condLt a b ∧ condLe a b = !condGt a b ∧ condNe a b = !condEq a b ∧
    condGeu a b = !condLtu a b ∧ condLeu a b = !condGtu a b ∧
    (condLt a b ≠ condLtu a b ↔ a.getLsbD 31 ≠ b.getLsbD 31)

/-- How far control transfers reach (R53, R163, R164): CALL to multiples of 4 below 2^28; B from pc - 2^27 to
pc + 2^27 - 4; a conditional branch from pc - 2^17 to pc + 2^17 - 4; each modulo 2^32 (the spec's decisions D2, D12,
log 18, 20). -/
def Obligations.ReachOfControlTransfers : Prop :=
  (∀ imm : Imm26, (callTarget imm).toNat % 4 = 0 ∧ (callTarget imm).toNat ≤ 0x0FFFFFFC) ∧
  (∀ (s : State) (imm : Imm26), ∃ k : Int, -2 ^ 27 ≤ k ∧ k ≤ 2 ^ 27 - 4 ∧ k % 4 = 0 ∧
    ((jumpTarget s imm).toNat : Int) = ((s.pc.toNat : Int) + k) % 2 ^ 32) ∧
  (∀ (s : State) (imm : Imm16), ∃ k : Int, -2 ^ 17 ≤ k ∧ k ≤ 2 ^ 17 - 4 ∧ k % 4 = 0 ∧
    ((branchTarget s imm).toNat : Int) = ((s.pc.toNat : Int) + k) % 2 ^ 32)

/-! ## System -/

/-- ERET (R191): completes where an address that is a multiple of 4 was saved: `pc` takes it, nothing else changes, the
saved address still stands; with no address EretNoAddress, with another MisalignedTarget. The faults and the unchanged
rest are the spec's decisions D17, D5 (log 28, 11). -/
def Obligations.EretResumesAtTheSavedAddress : Prop :=
  ∀ s : State,
    (encode .eret).toNat = 0xF8000000 ∧
    (∀ a : Word, s.epc = some a → a.toNat % 4 = 0 →
      ∃ t, exec .eret s = .next t ∧ t.pc = a ∧ SameRegs s t ∧ SameOutsideRegs s t) ∧
    (∀ a : Word, s.epc = some a → a.toNat % 4 ≠ 0 → exec .eret s = .fault .misalignedTarget) ∧
    (s.epc = none → exec .eret s = .fault .eretNoAddress)

/-- HALT (R192): completes in every state: the halt line up, every register, every byte, the written set, the saved
address and the parameters as before; `pc` is left open (R193, log 7). That no step follows is the spec's decision D21
(log 8). -/
def Obligations.HaltRaisesTheLine : Prop :=
  ∀ s : State,
    (encode .halt).toNat = 0xFC000000 ∧
    ∃ t, exec .halt s = .next t ∧ t.halted = true ∧ SameRegs s t ∧ (∀ a, t.mem.read a = s.mem.read a) ∧
      t.written = s.written ∧ t.epc = s.epc ∧ t.cfg = s.cfg ∧ (∀ u, step t ≠ .next u)

/-- Taking an exception saves the resume address, in place of one already saved, and goes to the handler; ERET, after the
handler's own instructions have run for any number of steps, resumes at the saved address (R233, R235). The handler's
address and the choice of the resume address are open (`EXC_ENTRY`, D17, log 15). That entry leaves registers, memory and
the halt line as they were, and that it overwrites an address already saved, is THE MODEL'S CHOICE (log 15), not R233's or
R235's; that the handler's steps keep the saved address is the spec's decision D17 (log 28). -/
def Obligations.ExceptionEntryThenReturn : Prop :=
  ∀ (s t : State) (resume handler : Word),
    ((takeException s resume handler).epc = some resume ∧ (takeException s resume handler).pc = handler ∧
      SameRegs s (takeException s resume handler) ∧
      (∀ a, (takeException s resume handler).mem.read a = s.mem.read a) ∧
      (takeException s resume handler).halted = s.halted) ∧
    (resume.toNat % 4 = 0 → Steps (takeException s resume handler) t →
      ∃ u, exec .eret t = .next u ∧ u.pc = resume ∧ SameRegs t u ∧ SameOutsideRegs t u)

/-! ## Pseudo-instructions, labels, directives -/

/-- LI (R210): translated to LUI and ORI, which one after the other leave const32 in Rd, `{const32[31:16], 0x0000}`
between the two, `pc` 8 bytes on, nothing else changed. -/
def Obligations.LoadImmediateMakesTheConstant : Prop :=
  (∀ (s : State) (rd : RegNum) (value : Word),
    expandPseudo (.li rd value) = [.lui rd (value.extractLsb' 16 16), .ori rd rd (value.extractLsb' 0 16)] ∧
    ∃ t u, exec (.lui rd (value.extractLsb' 16 16)) s = .next t ∧
      WritesReg s t rd (value.extractLsb' 16 16 ++ 0x0000#16) ∧
      exec (.ori rd rd (value.extractLsb' 0 16)) t = .next u ∧
      WritesReg s u rd value ∧ u.pc.toNat = (s.pc.toNat + 8) % 2 ^ 32) ∧
  (expandPseudo (.li 4#5 0xDEADBEEF#32)).map encode = [0x1880DEAD#32, 0xA884BEEF#32]

/-- NOT, NOP, MOVE, NEG, LLI, RET (R203 to R206, R209, R211): what each is translated to, with the rule's word, does what
the rule says: NOR with rs = rt, ADD with rt = R0, SUB with rs = R0, ORI with rs = R0, JR with R31. RET completes where
R31 holds a multiple of 4, the spec's decision D5 for JR (R161, log 11), so that clause says less than R211 alone. -/
def Obligations.PseudoInstructionEffects : Prop :=
  (∀ (s : State) (rd rs : RegNum) (imm : Imm16),
    (expandPseudo (.not rd rs) = [.nor rd rs rs] ∧ ∃ t v, exec (.nor rd rs rs) s = .next t ∧
      WritesReg s t rd v ∧ AtNext s t ∧ v.toNat = 2 ^ 32 - 1 - (readReg s rs).toNat) ∧
    (expandPseudo .nop = [.add 0#5 0#5 0#5] ∧ ∃ t, exec (.add 0#5 0#5 0#5) s = .next t ∧
      t = { s with pc := t.pc } ∧ AtNext s t) ∧
    (expandPseudo (.move rd rs) = [.add rd rs 0#5] ∧ ∃ t, exec (.add rd rs 0#5) s = .next t ∧
      WritesReg s t rd (readReg s rs) ∧ AtNext s t) ∧
    (expandPseudo (.neg rd rs) = [.sub rd 0#5 rs] ∧ ∃ t v, exec (.sub rd 0#5 rs) s = .next t ∧
      WritesReg s t rd v ∧ AtNext s t ∧ (v.toNat : Int) = (0 - (readReg s rs).toNat : Int) % 2 ^ 32) ∧
    (expandPseudo (.lli rd imm) = [.ori rd 0#5 imm] ∧ ∃ t v, exec (.ori rd 0#5 imm) s = .next t ∧
      WritesReg s t rd v ∧ AtNext s t ∧ v.toNat = imm.toNat) ∧
    (expandPseudo .ret = [.jr 31#5] ∧ ((readReg s 31#5).toNat % 4 = 0 →
      ∃ t, exec (.jr 31#5) s = .next t ∧ t.pc = readReg s 31#5 ∧ SameRegs s t ∧ SameOutsideRegs s t))) ∧
  (expandPseudo (.not 4#5 5#5)).map encode = [0x2C852800#32] ∧
  (expandPseudo .nop).map encode = [0x00000000#32] ∧
  (expandPseudo (.move 4#5 5#5)).map encode = [0x00850000#32] ∧
  (expandPseudo (.neg 4#5 5#5)).map encode = [0x04802800#32] ∧
  (expandPseudo (.lli 4#5 0xBEEF#16)).map encode = [0xA880BEEF#32] ∧
  (expandPseudo .ret).map encode = [0x5BE00000#32]

/-- A branch, B or CALL assembled with the field of a label lands on the label (R212), BEQZ and BNEZ (R207, R208)
included. It rests on the spec's decisions D2 and D24 (log 18, 27). -/
def Obligations.LabelFieldsReachTheLabel : Prop :=
  ∀ (s : State) (l : Word) (rd : RegNum),
    (∀ f, labelOff16 s.pc l = some f →
      branchTarget s f = l ∧
      (∃ i t, expandPseudo (.beqz rd f) = [i] ∧ exec i s = .next t ∧
        t.pc = if readReg s rd = 0#32 then l else s.pc + 4#32) ∧
      (∃ i t, expandPseudo (.bnez rd f) = [i] ∧ exec i s = .next t ∧
        t.pc = if readReg s rd = 0#32 then s.pc + 4#32 else l)) ∧
    (∀ f, labelOff26 s.pc l = some f → ∃ t, exec (.b f) s = .next t ∧ t.pc = l) ∧
    (∀ f, labelConst26 l = some f → ∃ t, exec (.call f) s = .next t ∧ t.pc = l)

/-- What `.word` lays down is what LW reads back (R221), what `.byte` lays down is at successive addresses (R220), and a
`.string` is the codes of its characters and a zero byte (R222), from every memory in canonical form and at every
address, as long as the bytes are not more than there are addresses. The byte layout is the open BYTE_ORDER (D3, log 3)
and a word's bytes wrap modulo 2^32 by R44; that `.byte`, `.string` and the next address wrap too is THE MODEL'S CHOICE
(log 31), and so is that the character codes are free (log 27). -/
def Obligations.DirectivesLayDownTheirData : Prop :=
  ∀ (s : State) (a : Nat) (ws bs : List Nat) (cs xs : List Char) (m : Memory) (next : Nat), s.mem.wf = true →
    (layDirective s.cfg.byteOrder s.mem a (.word ws) = some (m, next) → 4 * ws.length ≤ 2 ^ 32 →
      next = (a + 4 * ws.length) % 2 ^ 32 ∧
      ∀ k w, ws[k]? = some w → (wordAt { s with mem := m } (a + 4 * k)).toNat = w) ∧
    (layDirective s.cfg.byteOrder s.mem a (.byte bs) = some (m, next) → bs.length ≤ 2 ^ 32 →
      next = (a + bs.length) % 2 ^ 32 ∧ ∀ k b, bs[k]? = some b → (m.read ((a + k) % 2 ^ 32)).toNat = b) ∧
    (layDirective s.cfg.byteOrder s.mem a (.string cs) = some (m, next) → unescape cs = some xs →
      xs.length + 1 ≤ 2 ^ 32 →
      next = (a + xs.length + 1) % 2 ^ 32 ∧ m.read ((a + xs.length) % 2 ^ 32) = 0#8 ∧
      ∀ k c, xs[k]? = some c → m.read ((a + k) % 2 ^ 32) = Config.charCode c)

/-! ## The written set, segments, constants -/

/-- From every state whose written bytes are all let through for write, a step gives such a state: a store writes only
where MEM_MAP lets it (R41, R48; the spec's decision D13, log 4), and nothing else writes (R59; D14, log 14). -/
def Obligations.EveryStepKeepsWrittenAllowed : Prop :=
  ∀ s t : State, s.WrittenAllowed → step s = .next t → t.WrittenAllowed

/-- In every launch state all written bytes are let through for write: nothing is written yet (R261, the spec's decision
D20). -/
def Obligations.LaunchMeetsWrittenAllowed : Prop := ∀ s : State, s.IsLaunch → s.WrittenAllowed

/-- After `.segment l`, every line up to the next `.segment` is laid down in that segment, at its own address, and no
other segment's address moves (R216): an instruction is its word's bytes, a pseudo-instruction the instructions it is
translated to, `.byte`, `.word`, `.string` and `.alloc` what they lay down and reserve (R61). THE MODEL'S CHOICE: where each
segment starts is given from outside, a segment without a place is refused, one entered again goes on where it was left,
and instructions and data may share a segment (log 33); the bytes of `.byte` and `.string` and the next address wrap modulo 2^32 (log 31). -/
def Obligations.SegmentsKeepTheirOwnAddresses : Prop :=
  ∀ (o : ByteOrder) (labels : List String) (a : Assembly) (l : String),
    (a.places.lookup l = none → layLine o labels a (.directive (.segment l)) = none) ∧
    (∀ p, a.places.lookup l = some p →
      ∃ b, layLine o labels a (.directive (.segment l)) = some b ∧ LaidIn a b l a.mem p ∧
        (∀ m ops xs i, resolveOperands a.constants ops = some xs → assembleLine m xs = some i →
          ∃ c, layLine o labels b (.instr m ops) = some c ∧
            LaidIn a c l (a.mem.writeBytes p (encodeBytes o i)) ((p + 4) % 2 ^ 32)) ∧
        (∀ m ops xs q, resolveOperands a.constants ops = some xs → pseudoLine m xs = some q →
          ∃ c, layLine o labels b (.pseudo m ops) = some c ∧
            LaidIn a c l (layProgram o a.mem p (expandPseudo q)) ((p + 4 * (expandPseudo q).length) % 2 ^ 32)) ∧
        (∀ n vs cs, ∀ d ∈ [Directive.alloc n, .byte vs, .word vs, .string cs], ∀ bs, directiveBytes o d = some bs →
          ∃ c, layLine o labels b (.directive d) = some c ∧
            LaidIn a c l (a.mem.writeBytes p bs) ((p + bs.length + directiveReserves d) % 2 ^ 32)) ∧
        (∀ ls c, (∀ l', Line.directive (.segment l') ∉ ls) → layLines o labels b ls = some c →
          c.segment = l ∧ ∀ l', l' ≠ l → c.places.lookup l' = a.places.lookup l'))

/-- A name defined by `.define` stands for its value in every immediate value and offset of the lines after it (R200,
R218), and a line that uses a name not yet defined is refused; a name that is not alphanumeric is not accepted. That a
second definition of a name holds from then on is THE MODEL'S CHOICE (log 27). -/
def Obligations.DefinedNamesStandForTheirValue : Prop :=
  ∀ (o : ByteOrder) (labels : List String) (a : Assembly) (n : String) (v : Int),
    (n.toList ≠ [] → (∀ c ∈ n.toList, c.isAlphanum = true) →
      ∃ b, layLine o labels a (.directive (.define n v)) = some b ∧ b.mem = a.mem ∧ b.places = a.places ∧
        ∀ form ∈ [SourceOperand.const16, .const26, .const32, .off16, .off26], ∀ before after,
          (∀ m, layLine o labels b (.instr m (before ++ form (.name n) :: after)) =
            layLine o labels b (.instr m (before ++ form (.number v) :: after))) ∧
          (∀ m, layLine o labels b (.pseudo m (before ++ form (.name n) :: after)) =
            layLine o labels b (.pseudo m (before ++ form (.number v) :: after)))) ∧
    ((∃ c ∈ n.toList, c.isAlphanum = false) → layLine o labels a (.directive (.define n v)) = none) ∧
    (a.constants.lookup n = none →
      ∀ form ∈ [SourceOperand.const16, .const26, .const32, .off16, .off26], ∀ before after,
        (∀ m, layLine o labels a (.instr m (before ++ form (.name n) :: after)) = none) ∧
        (∀ m, layLine o labels a (.pseudo m (before ++ form (.name n) :: after)) = none))
end

