-- ==== Sys2Proof/Laws/Fields.lean ====
section
/-! SUPPORT. A packed word as a number (R74), its fields (R71), and bytes: a value laid out and assembled again is
the value (R44, R47). -/

namespace Sys2Proof

/-! ### Packed words as numbers -/

theorem toNat_append_add {n m : Nat} (x : BitVec n) (y : BitVec m) :
    (x ++ y).toNat = x.toNat * 2 ^ m + y.toNat := by
  rw [BitVec.toNat_append, ← Nat.shiftLeft_add_eq_or_of_lt y.isLt, Nat.shiftLeft_eq]

theorem toNat_packR3 (op : BitVec 6) (d s t : RegNum) :
    (packR3 op d s t).toNat =
      op.toNat * 67108864 + d.toNat * 2097152 + s.toNat * 65536 + t.toNat * 2048 := by
  change (op ++ d ++ s ++ t ++ 0#11).toNat = _
  rw [toNat_append_add, toNat_append_add, toNat_append_add, toNat_append_add]
  simp; omega

theorem toNat_packI (op : BitVec 6) (d s : RegNum) (c : Imm16) :
    (packI op d s c).toNat = op.toNat * 67108864 + d.toNat * 2097152 + s.toNat * 65536 + c.toNat := by
  change (op ++ d ++ s ++ c).toNat = _
  rw [toNat_append_add, toNat_append_add, toNat_append_add]
  omega

theorem toNat_packU (op : BitVec 6) (d : RegNum) (c : Imm16) :
    (packU op d c).toNat = op.toNat * 67108864 + d.toNat * 2097152 + c.toNat := by
  change (op ++ d ++ 0#5 ++ c).toNat = _
  rw [toNat_append_add, toNat_append_add, toNat_append_add]
  simp; omega

theorem toNat_packR1 (op : BitVec 6) (d : RegNum) :
    (packR1 op d).toNat = op.toNat * 67108864 + d.toNat * 2097152 := by
  change (op ++ d ++ 0#21).toNat = _
  rw [toNat_append_add, toNat_append_add]
  simp; omega

theorem toNat_packJ (op : BitVec 6) (c : Imm26) : (packJ op c).toNat = op.toNat * 67108864 + c.toNat := by
  change (op ++ c).toNat = _
  rw [toNat_append_add]; norm_num

theorem toNat_packN (op : BitVec 6) : (packN op).toNat = op.toNat * 67108864 := by
  change (op ++ 0#26).toNat = _
  rw [toNat_append_add]; simp

/-! ### Fields as numbers -/

theorem toNat_extract (w : Word) (lo n : Nat) :
    (w.extractLsb' lo n).toNat = w.toNat / 2 ^ lo % 2 ^ n := by
  simp [Nat.shiftRight_eq_div_pow]

theorem toNat_fieldOpcode (w : Word) : (fieldOpcode w).toNat = w.toNat / 67108864 := by
  have := w.isLt
  rw [fieldOpcode, toNat_extract]; omega

theorem toNat_fieldRd (w : Word) : (fieldRd w).toNat = w.toNat / 2097152 % 32 := toNat_extract w 21 5
theorem toNat_fieldRs (w : Word) : (fieldRs w).toNat = w.toNat / 65536 % 32 := toNat_extract w 16 5
theorem toNat_fieldRt (w : Word) : (fieldRt w).toNat = w.toNat / 2048 % 32 := toNat_extract w 11 5
theorem toNat_fieldImm16 (w : Word) : (fieldImm16 w).toNat = w.toNat % 65536 := by
  rw [fieldImm16, toNat_extract]; simp
theorem toNat_fieldImm26 (w : Word) : (fieldImm26 w).toNat = w.toNat % 67108864 := by
  rw [fieldImm26, toNat_extract]; simp

/-! ### Decoding a packed word gives its fields back -/

theorem fieldOpcode_packR3 (op : BitVec 6) (d s t : RegNum) : fieldOpcode (packR3 op d s t) = op := by
  apply BitVec.eq_of_toNat_eq
  have := d.isLt; have := s.isLt; have := t.isLt
  rw [toNat_fieldOpcode, toNat_packR3]; omega

theorem fieldOpcode_packI (op : BitVec 6) (d s : RegNum) (c : Imm16) : fieldOpcode (packI op d s c) = op := by
  apply BitVec.eq_of_toNat_eq
  have := d.isLt; have := s.isLt; have := c.isLt
  rw [toNat_fieldOpcode, toNat_packI]; omega

theorem fieldOpcode_packU (op : BitVec 6) (d : RegNum) (c : Imm16) : fieldOpcode (packU op d c) = op := by
  apply BitVec.eq_of_toNat_eq
  have := d.isLt; have := c.isLt
  rw [toNat_fieldOpcode, toNat_packU]; omega

theorem fieldOpcode_packR1 (op : BitVec 6) (d : RegNum) : fieldOpcode (packR1 op d) = op := by
  apply BitVec.eq_of_toNat_eq
  have := d.isLt
  rw [toNat_fieldOpcode, toNat_packR1]; omega

theorem fieldOpcode_packJ (op : BitVec 6) (c : Imm26) : fieldOpcode (packJ op c) = op := by
  apply BitVec.eq_of_toNat_eq
  have := c.isLt
  rw [toNat_fieldOpcode, toNat_packJ]; omega

theorem fieldOpcode_packN (op : BitVec 6) : fieldOpcode (packN op) = op := by
  apply BitVec.eq_of_toNat_eq
  rw [toNat_fieldOpcode, toNat_packN]; omega

theorem decodeR3_packR3 (op : BitVec 6) (d s t : RegNum) (make : RegNum → RegNum → RegNum → Instr) :
    decodeR3 (packR3 op d s t) make = .ok (make d s t) := by
  have hop := op.isLt; have hd := d.isLt; have hs := s.isLt; have ht := t.isLt
  have h0 : (packR3 op d s t).extractLsb' 0 11 = 0#11 := by
    apply BitVec.eq_of_toNat_eq
    rw [toNat_extract, toNat_packR3]; simp; omega
  have h1 : fieldRd (packR3 op d s t) = d := by
    apply BitVec.eq_of_toNat_eq; rw [toNat_fieldRd, toNat_packR3]; omega
  have h2 : fieldRs (packR3 op d s t) = s := by
    apply BitVec.eq_of_toNat_eq; rw [toNat_fieldRs, toNat_packR3]; omega
  have h3 : fieldRt (packR3 op d s t) = t := by
    apply BitVec.eq_of_toNat_eq; rw [toNat_fieldRt, toNat_packR3]; omega
  simp only [decodeR3, h0, h1, h2, h3, if_true]

theorem decodeI_packI (op : BitVec 6) (d s : RegNum) (c : Imm16) (make : RegNum → RegNum → Imm16 → Instr) :
    decodeI (packI op d s c) make = .ok (make d s c) := by
  have hop := op.isLt; have hd := d.isLt; have hs := s.isLt; have hc := c.isLt
  have h1 : fieldRd (packI op d s c) = d := by
    apply BitVec.eq_of_toNat_eq; rw [toNat_fieldRd, toNat_packI]; omega
  have h2 : fieldRs (packI op d s c) = s := by
    apply BitVec.eq_of_toNat_eq; rw [toNat_fieldRs, toNat_packI]; omega
  have h3 : fieldImm16 (packI op d s c) = c := by
    apply BitVec.eq_of_toNat_eq; rw [toNat_fieldImm16, toNat_packI]; omega
  simp only [decodeI, h1, h2, h3]

theorem decodeU_packU (op : BitVec 6) (d : RegNum) (c : Imm16) (make : RegNum → Imm16 → Instr) :
    decodeU (packU op d c) make = .ok (make d c) := by
  have hop := op.isLt; have hd := d.isLt; have hc := c.isLt
  have h0 : (packU op d c).extractLsb' 16 5 = 0#5 := by
    apply BitVec.eq_of_toNat_eq
    rw [toNat_extract, toNat_packU]; simp; omega
  have h1 : fieldRd (packU op d c) = d := by
    apply BitVec.eq_of_toNat_eq; rw [toNat_fieldRd, toNat_packU]; omega
  have h3 : fieldImm16 (packU op d c) = c := by
    apply BitVec.eq_of_toNat_eq; rw [toNat_fieldImm16, toNat_packU]; omega
  simp only [decodeU, h0, h1, h3, if_true]

theorem decodeR1_packR1 (op : BitVec 6) (d : RegNum) (make : RegNum → Instr) :
    decodeR1 (packR1 op d) make = .ok (make d) := by
  have hop := op.isLt; have hd := d.isLt
  have h0 : (packR1 op d).extractLsb' 0 21 = 0#21 := by
    apply BitVec.eq_of_toNat_eq
    rw [toNat_extract, toNat_packR1]; simp; omega
  have h1 : fieldRd (packR1 op d) = d := by
    apply BitVec.eq_of_toNat_eq; rw [toNat_fieldRd, toNat_packR1]; omega
  simp only [decodeR1, h0, h1, if_true]

theorem decodeJ_packJ (op : BitVec 6) (c : Imm26) (make : Imm26 → Instr) :
    decodeJ (packJ op c) make = .ok (make c) := by
  have hop := op.isLt; have hc := c.isLt
  have h1 : fieldImm26 (packJ op c) = c := by
    apply BitVec.eq_of_toNat_eq; rw [toNat_fieldImm26, toNat_packJ]; omega
  simp only [decodeJ, h1]

theorem decodeN_packN (op : BitVec 6) (i : Instr) : decodeN (packN op) i = .ok i := by
  have hop := op.isLt
  have h0 : (packN op).extractLsb' 0 26 = 0#26 := by
    apply BitVec.eq_of_toNat_eq
    rw [toNat_extract, toNat_packN]; simp
  simp only [decodeN, h0, if_true]

/-! ### Bytes -/

namespace Machine

@[simp] theorem lowBytes_length (n : Nat) (v : Word) : (lowBytes n v).length = n := by
  induction n generalizing v with
  | zero => rfl
  | succ n ih => simp [lowBytes, ih]

@[simp] theorem toBytes_length (o : ByteOrder) (n : Nat) (v : Word) : (toBytes o n v).length = n := by
  cases o <;> simp [toBytes]

/-- Byte i of the low bytes of a value is its bits 8i+7 .. 8i (R44). -/
theorem getElem_lowBytes (n : Nat) (v : Word) (i : Nat) (hi : i < (lowBytes n v).length) :
    (lowBytes n v)[i] = v.extractLsb' (8 * i) 8 := by
  induction n generalizing v i with
  | zero => simp [lowBytes] at hi
  | succ n ih =>
    cases i with
    | zero => simp [lowBytes]; ext j hj; simp
    | succ i =>
      simp only [lowBytes, List.getElem_cons_succ]
      rw [ih]
      ext j hj
      simp only [BitVec.getElem_extractLsb', BitVec.getLsbD_ushiftRight]
      congr 1; omega

/-- The low bytes assembled again are the value's low bits. -/
theorem toNat_ofLowBytes_lowBytes (n : Nat) (hn : n ≤ 4) (v : Word) :
    (ofLowBytes (lowBytes n v)).toNat = v.toNat % 2 ^ (8 * n) := by
  induction n generalizing v with
  | zero => simp [lowBytes, ofLowBytes, Nat.mod_one]
  | succ n ih =>
    have h := ih (by omega) (v >>> 8)
    simp only [lowBytes, ofLowBytes, BitVec.toNat_or, BitVec.toNat_shiftLeft, h, BitVec.toNat_ushiftRight,
      BitVec.toNat_setWidth]
    have hv := v.isLt
    have hb : v.toNat % 2 ^ 8 % 2 ^ 32 = v.toNat % 256 := by omega
    rw [hb, Nat.shiftRight_eq_div_pow, Nat.shiftLeft_eq]
    have hx : v.toNat / 2 ^ 8 % 2 ^ (8 * n) * 2 ^ 8 < 2 ^ 32 := by
      have h1 : v.toNat / 2 ^ 8 % 2 ^ (8 * n) < 2 ^ (8 * n) := Nat.mod_lt _ (by positivity)
      have h2 : 2 ^ (8 * n) ≤ 2 ^ 24 := Nat.pow_le_pow_right (by norm_num) (by omega)
      omega
    rw [Nat.mod_eq_of_lt hx, ← Nat.shiftLeft_eq, ← Nat.shiftLeft_add_eq_or_of_lt (by omega : v.toNat % 256 < 2 ^ 8),
      Nat.shiftLeft_eq, show 8 * (n + 1) = 8 + 8 * n by ring, Nat.pow_add, Nat.mod_mul]
    omega

theorem ofLowBytes_lowBytes_word (v : Word) : ofLowBytes (lowBytes 4 v) = v := by
  apply BitVec.eq_of_toNat_eq
  rw [toNat_ofLowBytes_lowBytes 4 (by omega)]
  exact Nat.mod_eq_of_lt v.isLt

/-- A value laid out and assembled again, under either order, keeps its low bits (R44, R47). -/
theorem toNat_fromBytes_toBytes (o : ByteOrder) (n : Nat) (hn : n ≤ 4) (v : Word) :
    (fromBytes o (toBytes o n v)).toNat = v.toNat % 2 ^ (8 * n) := by
  cases o <;> simp [fromBytes, toBytes, toNat_ofLowBytes_lowBytes n hn]

/-- A word laid out and assembled again is the word. -/
theorem fromBytes_toBytes_word (o : ByteOrder) (v : Word) : fromBytes o (toBytes o 4 v) = v := by
  cases o <;> simp [fromBytes, toBytes, ofLowBytes_lowBytes_word]

end Machine

end Sys2Proof
end

