-- ==== Sys2Proof/Laws/Memory.lean ====
section
/-! SUPPORT. The laws of memory and of the written set: each operation keeps the canonical form, a byte written is
read back, and every other byte is left alone. -/

namespace Sys2Proof.Machine

/-! ### The canonical form -/

theorem wfFrom_cons {lo k : Nat} {v : Byte} {m : Memory} :
    Memory.wfFrom lo ((k, v) :: m) = true ↔
      lo ≤ k ∧ k < 4294967296 ∧ v ≠ unlistedByte ∧ Memory.wfFrom (k + 1) m = true := by
  simp [Memory.wfFrom, and_assoc]

theorem wfFrom_mono {m : Memory} {lo lo' : Nat} (h : Memory.wfFrom lo m = true) (hl : lo' ≤ lo) :
    Memory.wfFrom lo' m = true := by
  cases m with
  | nil => rfl
  | cons e m =>
    obtain ⟨k, v⟩ := e
    rw [wfFrom_cons] at h ⊢
    exact ⟨by omega, h.2⟩

/-- An address below every listed one is unlisted. -/
theorem read_below {m : Memory} {lo a : Nat} (h : Memory.wfFrom lo m = true) (ha : a < lo) :
    m.read a = unlistedByte := by
  induction m generalizing lo with
  | nil => rfl
  | cons e m ih =>
    obtain ⟨k, v⟩ := e
    rw [wfFrom_cons] at h
    have : a ≠ k := by omega
    simp only [Memory.read, this, if_false]
    exact ih h.2.2.2 (by omega)

theorem write_wfFrom {m : Memory} {lo a : Nat} (b : Byte) (h : Memory.wfFrom lo m = true) (hlo : lo ≤ a)
    (ha : a < 4294967296) : Memory.wfFrom lo (m.write a b) = true := by
  induction m generalizing lo with
  | nil =>
    unfold Memory.write
    split
    · rfl
    · rw [wfFrom_cons]; exact ⟨hlo, ha, ‹_›, rfl⟩
  | cons e m ih =>
    obtain ⟨k, v⟩ := e
    have h' := h
    rw [wfFrom_cons] at h'
    obtain ⟨h1, h2, h3, h4⟩ := h'
    unfold Memory.write
    split
    · split
      · exact h
      · rw [wfFrom_cons]
        exact ⟨hlo, ha, ‹_›, by rw [wfFrom_cons]; exact ⟨by omega, h2, h3, h4⟩⟩
    · split
      · split
        · exact wfFrom_mono h4 (by omega)
        · rw [wfFrom_cons]
          refine ⟨hlo, ha, ‹_›, ?_⟩
          rw [‹a = k›]; exact h4
      · rw [wfFrom_cons]
        exact ⟨h1, h2, h3, ih h4 (by omega)⟩

/-- Writing one byte keeps the canonical form. -/
theorem write_wf {m : Memory} {a : Nat} (b : Byte) (h : m.wf = true) (ha : a < 4294967296) :
    (m.write a b).wf = true := write_wfFrom b h (Nat.zero_le a) ha

theorem wrapAddr_lt (a : Nat) : wrapAddr a < 4294967296 := Nat.mod_lt _ (by decide)

@[simp] theorem wrapAddr_wrapAddr (a : Nat) : wrapAddr (wrapAddr a) = wrapAddr a := Nat.mod_mod _ _

theorem wrapAddr_of_lt {a : Nat} (h : a < 4294967296) : wrapAddr a = a := Nat.mod_eq_of_lt h

@[simp] theorem wrapAddr_toNat (a : Word) : wrapAddr a.toNat = a.toNat := wrapAddr_of_lt a.isLt

/-- Laying down bytes keeps the canonical form, wherever they start. -/
theorem writeBytes_wf {m : Memory} {a : Nat} (bs : List Byte) (h : m.wf = true) : (m.writeBytes a bs).wf = true := by
  induction bs generalizing m a with
  | nil => exact h
  | cons b bs ih => exact ih (write_wf b h (wrapAddr_lt a))

/-! ### Reading what was written -/

theorem read_writeFrom {m : Memory} {lo : Nat} (a : Nat) (b : Byte) (h : Memory.wfFrom lo m = true) (c : Nat) :
    (m.write a b).read c = if c = a then b else m.read c := by
  induction m generalizing lo with
  | nil =>
    unfold Memory.write
    split <;> by_cases hc : c = a <;> simp_all [Memory.read]
  | cons e m ih =>
    obtain ⟨k, v⟩ := e
    rw [wfFrom_cons] at h
    have below := fun {x : Nat} (hx : x < k + 1) => read_below h.2.2.2 hx
    unfold Memory.write
    split
    · have ha : Memory.read m a = unlistedByte := below (by omega)
      have hk : a ≠ k := by omega
      split <;> by_cases hc : c = a <;> simp_all [Memory.read]
    · split
      · rename_i hak
        subst hak
        have hk : Memory.read m a = unlistedByte := below (by omega)
        split <;> by_cases hc : c = a <;> simp_all [Memory.read]
      · simp only [Memory.read]
        rw [ih h.2.2.2]
        by_cases hk : c = k
        · subst hk
          have : c ≠ a := fun e => ‹¬a = c› e.symm
          simp [this]
        · simp [hk]

/-- A byte written is read back; every other byte is as before. -/
theorem read_write {m : Memory} (h : m.wf = true) (a : Nat) (b : Byte) (c : Nat) :
    (m.write a b).read c = if c = a then b else m.read c := read_writeFrom a b h c

/-- An address that is none of a, a+1, .., modulo 2^32, reads as before. -/
theorem read_writeBytes_apart {m : Memory} (h : m.wf = true) {a c : Nat} (bs : List Byte)
    (hc : ∀ i, i < bs.length → c ≠ wrapAddr (a + i)) : (m.writeBytes a bs).read c = m.read c := by
  induction bs generalizing m a with
  | nil => rfl
  | cons b bs ih =>
    simp only [List.length_cons] at hc
    simp only [Memory.writeBytes]
    have h0 : c ≠ wrapAddr a := hc 0 (by omega)
    rw [ih (write_wf b h (wrapAddr_lt a)) (fun i hi => ?_), read_write h, if_neg h0]
    have := hc (i + 1) (by omega)
    rwa [show a + (i + 1) = a + 1 + i by omega] at this

/-- Outside bytes laid down below 2^32, memory is as before. -/
theorem read_writeBytes_outside {m : Memory} (h : m.wf = true) {a c : Nat} (bs : List Byte)
    (ha : a + bs.length ≤ 4294967296) (hc : c < a ∨ a + bs.length ≤ c) :
    (m.writeBytes a bs).read c = m.read c :=
  read_writeBytes_apart h bs fun i hi => by rw [wrapAddr_of_lt (by omega)]; omega

/-- The bytes laid down are read back, as long as they do not come round to their own start. -/
theorem read_writeBytes_inside {m : Memory} (h : m.wf = true) {a i : Nat} (bs : List Byte)
    (hl : bs.length ≤ 4294967296) (hi : i < bs.length) :
    (m.writeBytes a bs).read (wrapAddr (a + i)) = bs[i] := by
  induction bs generalizing m a i with
  | nil => simp at hi
  | cons b bs ih =>
    simp only [List.length_cons] at hl hi
    simp only [Memory.writeBytes]
    cases i with
    | zero =>
      rw [read_writeBytes_apart (write_wf b h (wrapAddr_lt a)) bs (fun i hi => ?_), read_write h]
      · simp
      · simp only [wrapAddr]; omega
    | succ i =>
      have := ih (m := m.write (wrapAddr a) b) (write_wf b h (wrapAddr_lt a)) (a := a + 1) (i := i) (by omega)
        (by omega)
      rw [show a + (i + 1) = a + 1 + i by omega]
      simpa using this

@[simp] theorem readBytes_length (m : Memory) (a n : Nat) : (m.readBytes a n).length = n := by
  induction n generalizing a with
  | zero => rfl
  | succ n ih => simp [Memory.readBytes, ih]

theorem getElem_readBytes (m : Memory) (a n i : Nat) (hi : i < (m.readBytes a n).length) :
    (m.readBytes a n)[i] = m.read (wrapAddr (a + i)) := by
  induction n generalizing a i with
  | zero => simp [Memory.readBytes] at hi
  | succ n ih =>
    cases i with
    | zero => rfl
    | succ i =>
      simp only [Memory.readBytes, List.getElem_cons_succ]
      rw [ih]; congr 2; omega

/-- Reading where bytes were laid down gives those bytes. -/
theorem readBytes_writeBytes {m : Memory} (h : m.wf = true) {a : Nat} (bs : List Byte)
    (hl : bs.length ≤ 4294967296) : (m.writeBytes a bs).readBytes a bs.length = bs := by
  apply List.ext_getElem
  · simp
  · intro i h1 h2
    rw [getElem_readBytes, read_writeBytes_inside h bs hl h2]

/-! ### The written set -/

theorem addrsWfFrom_cons {lo k : Nat} {ks : List Nat} :
    addrsWfFrom lo (k :: ks) = true ↔ lo ≤ k ∧ k < 4294967296 ∧ addrsWfFrom (k + 1) ks = true := by
  simp [addrsWfFrom, and_assoc]

theorem addAddr_wfFrom {ks : List Nat} {lo a : Nat} (h : addrsWfFrom lo ks = true) (hlo : lo ≤ a)
    (ha : a < 4294967296) : addrsWfFrom lo (addAddr ks a) = true := by
  induction ks generalizing lo with
  | nil => rw [addAddr, addrsWfFrom_cons]; exact ⟨hlo, ha, rfl⟩
  | cons k ks ih =>
    have h' := h
    rw [addrsWfFrom_cons] at h'
    unfold addAddr
    split
    · rw [addrsWfFrom_cons, addrsWfFrom_cons]; exact ⟨hlo, ha, by omega, h'.2⟩
    · split
      · exact h
      · rw [addrsWfFrom_cons]; exact ⟨h'.1, h'.2.1, ih h'.2.2 (by omega)⟩

/-- Adding addresses keeps the canonical form. -/
theorem addAddrs_wf {ks : List Nat} {a n : Nat} (h : addrsWf ks = true) (ha : a + n ≤ 4294967296) :
    addrsWf (addAddrs ks a n) = true := by
  induction n generalizing ks a with
  | zero => exact h
  | succ n ih => exact ih (addAddr_wfFrom h (Nat.zero_le _) (by omega)) (by omega)

theorem mem_addAddr {ks : List Nat} {a c : Nat} : c ∈ addAddr ks a ↔ c = a ∨ c ∈ ks := by
  induction ks with
  | nil => simp [addAddr]
  | cons k ks ih =>
    unfold addAddr
    split
    · simp
    · split
      · subst_vars; simp
      · simp [ih]; tauto

/-- What is in the written set after addresses are added. -/
theorem mem_addAddrs {ks : List Nat} {a n c : Nat} :
    c ∈ addAddrs ks a n ↔ (a ≤ c ∧ c < a + n) ∨ c ∈ ks := by
  induction n generalizing ks a with
  | zero => simp [addAddrs]
  | succ n ih =>
    rw [addAddrs, ih, mem_addAddr]
    constructor
    · rintro (h | rfl | h)
      · exact .inl ⟨by omega, by omega⟩
      · exact .inl ⟨by omega, by omega⟩
      · exact .inr h
    · rintro (h | h)
      · by_cases hc : c = a
        · exact .inr (.inl hc)
        · exact .inl ⟨by omega, by omega⟩
      · exact .inr (.inr h)

theorem anyAddr_iff {ks : List Nat} {a n : Nat} :
    anyAddr ks a n = true ↔ ∃ c, a ≤ c ∧ c < a + n ∧ c ∈ ks := by
  induction n generalizing a with
  | zero => simp [anyAddr]; omega
  | succ n ih =>
    simp only [anyAddr, Bool.or_eq_true, ih, List.contains_iff_mem]
    constructor
    · rintro (h | ⟨c, h1, h2, h3⟩)
      · exact ⟨a, by omega, by omega, h⟩
      · exact ⟨c, by omega, by omega, h3⟩
    · rintro ⟨c, h1, h2, h3⟩
      by_cases hc : c = a
      · exact .inl (hc ▸ h3)
      · exact .inr ⟨c, by omega, by omega, h3⟩

/-! ### The memory map -/

/-- An access is let through exactly when each of its bytes is (R41). -/
theorem mapAllowsAll_iff {c : Config} {kind : AccessKind} {a n : Nat} :
    mapAllowsAll c kind a n = true ↔ ∀ i, i < n → mapAllows c kind (a + i) = true := by
  induction n generalizing a with
  | zero => simp [mapAllowsAll]
  | succ n ih =>
    simp only [mapAllowsAll, Bool.and_eq_true, ih]
    constructor
    · rintro ⟨h0, h⟩ i hi
      cases i with
      | zero => exact h0
      | succ i =>
        have := h i (by omega)
        rwa [show a + 1 + i = a + (i + 1) by omega] at this
    · intro h
      refine ⟨h 0 (by omega), fun i hi => ?_⟩
      have := h (i + 1) (by omega)
      rwa [show a + 1 + i = a + (i + 1) by omega]

end Sys2Proof.Machine
end

