-- ==== Sys2Proof/Laws/State.lean ====
section
/-! SUPPORT. One lemma per field and update of State, so that no later proof unfolds a record update. -/

namespace Sys2Proof.Machine

variable (s : State) (r : RegNum) (v w : Word)

/-! ### writeReg: only `regs` -/

@[simp] theorem writeReg_pc : (writeReg s r v).pc = s.pc := by unfold writeReg; split <;> rfl
@[simp] theorem writeReg_epc : (writeReg s r v).epc = s.epc := by unfold writeReg; split <;> rfl
@[simp] theorem writeReg_halted : (writeReg s r v).halted = s.halted := by unfold writeReg; split <;> rfl
@[simp] theorem writeReg_mem : (writeReg s r v).mem = s.mem := by unfold writeReg; split <;> rfl
@[simp] theorem writeReg_written : (writeReg s r v).written = s.written := by unfold writeReg; split <;> rfl
@[simp] theorem writeReg_cfg : (writeReg s r v).cfg = s.cfg := by unfold writeReg; split <;> rfl
@[simp] theorem writeReg_freeCount : (writeReg s r v).freeCount = s.freeCount := by
  unfold writeReg; split <;> rfl
@[simp] theorem writeReg_zero : writeReg s 0#5 v = s := by simp [writeReg]

/-! ### writePair: only `regs` -/

@[simp] theorem writePair_pc : (writePair s r v w).pc = s.pc := by unfold writePair; split <;> simp
@[simp] theorem writePair_epc : (writePair s r v w).epc = s.epc := by unfold writePair; split <;> simp
@[simp] theorem writePair_halted : (writePair s r v w).halted = s.halted := by unfold writePair; split <;> simp
@[simp] theorem writePair_mem : (writePair s r v w).mem = s.mem := by unfold writePair; split <;> simp
@[simp] theorem writePair_written : (writePair s r v w).written = s.written := by
  unfold writePair; split <;> simp
@[simp] theorem writePair_cfg : (writePair s r v w).cfg = s.cfg := by unfold writePair; split <;> simp
@[simp] theorem writePair_freeCount : (writePair s r v w).freeCount = s.freeCount := by
  unfold writePair; split <;> simp

/-! ### setPc and advance: only `pc` -/

@[simp] theorem setPc_regs : (setPc s v).regs = s.regs := rfl
@[simp] theorem setPc_pc : (setPc s v).pc = v := rfl
@[simp] theorem setPc_epc : (setPc s v).epc = s.epc := rfl
@[simp] theorem setPc_halted : (setPc s v).halted = s.halted := rfl
@[simp] theorem setPc_mem : (setPc s v).mem = s.mem := rfl
@[simp] theorem setPc_written : (setPc s v).written = s.written := rfl
@[simp] theorem setPc_cfg : (setPc s v).cfg = s.cfg := rfl
@[simp] theorem setPc_freeCount : (setPc s v).freeCount = s.freeCount := rfl

@[simp] theorem advance_regs : (advance s).regs = s.regs := rfl
@[simp] theorem advance_pc : (advance s).pc = s.pc + 4#32 := rfl
@[simp] theorem advance_epc : (advance s).epc = s.epc := rfl
@[simp] theorem advance_halted : (advance s).halted = s.halted := rfl
@[simp] theorem advance_mem : (advance s).mem = s.mem := rfl
@[simp] theorem advance_written : (advance s).written = s.written := rfl
@[simp] theorem advance_cfg : (advance s).cfg = s.cfg := rfl
@[simp] theorem advance_freeCount : (advance s).freeCount = s.freeCount := rfl

/-! ### poke: only `mem` and `written` -/

variable (a : Word) (n : Size)

@[simp] theorem poke_regs : (poke s a n v).regs = s.regs := rfl
@[simp] theorem poke_pc : (poke s a n v).pc = s.pc := rfl
@[simp] theorem poke_epc : (poke s a n v).epc = s.epc := rfl
@[simp] theorem poke_halted : (poke s a n v).halted = s.halted := rfl
@[simp] theorem poke_mem :
    (poke s a n v).mem = s.mem.writeBytes a.toNat (toBytes s.cfg.byteOrder n.bytes v) := rfl
@[simp] theorem poke_written : (poke s a n v).written = addAddrs s.written a.toNat n.bytes := rfl
@[simp] theorem poke_cfg : (poke s a n v).cfg = s.cfg := rfl
@[simp] theorem poke_freeCount : (poke s a n v).freeCount = s.freeCount := rfl

/-! ### takeException: only `epc` and `pc` -/

@[simp] theorem takeException_regs : (takeException s v w).regs = s.regs := rfl
@[simp] theorem takeException_pc : (takeException s v w).pc = w := rfl
@[simp] theorem takeException_epc : (takeException s v w).epc = some v := rfl
@[simp] theorem takeException_halted : (takeException s v w).halted = s.halted := rfl
@[simp] theorem takeException_mem : (takeException s v w).mem = s.mem := rfl
@[simp] theorem takeException_written : (takeException s v w).written = s.written := rfl
@[simp] theorem takeException_cfg : (takeException s v w).cfg = s.cfg := rfl
@[simp] theorem takeException_freeCount : (takeException s v w).freeCount = s.freeCount := rfl

/-! ### raiseHalt: only `halted`, `pc` and the model's counter -/

@[simp] theorem raiseHalt_regs : (raiseHalt s).regs = s.regs := rfl
@[simp] theorem raiseHalt_epc : (raiseHalt s).epc = s.epc := rfl
@[simp] theorem raiseHalt_halted : (raiseHalt s).halted = true := rfl
@[simp] theorem raiseHalt_mem : (raiseHalt s).mem = s.mem := rfl
@[simp] theorem raiseHalt_written : (raiseHalt s).written = s.written := rfl
@[simp] theorem raiseHalt_cfg : (raiseHalt s).cfg = s.cfg := rfl
@[simp] theorem raiseHalt_freeCount : (raiseHalt s).freeCount = s.freeCount + 1 := rfl

/-! ### launch -/

variable (c : Config) (regs : Vector Word 32) (m : Memory) (e : Option Word)

@[simp] theorem launch_regs : (State.launch c regs m e).regs = regs := rfl
@[simp] theorem launch_pc : (State.launch c regs m e).pc = c.resetPc := rfl
@[simp] theorem launch_epc : (State.launch c regs m e).epc = e := rfl
@[simp] theorem launch_halted : (State.launch c regs m e).halted = false := rfl
@[simp] theorem launch_mem : (State.launch c regs m e).mem = m := rfl
@[simp] theorem launch_written : (State.launch c regs m e).written = [] := rfl
@[simp] theorem launch_cfg : (State.launch c regs m e).cfg = c := rfl

end Sys2Proof.Machine
end

