-- ==== Sys2Proof/Laws/Registers.lean ====
section
/-! SUPPORT. The laws of the register file: R0 reads 0 and drops writes (R21), a write is read back, and leaves every
other register alone. -/

namespace Sys2Proof.Machine

variable (s : State) (q r : RegNum) (v lo hi : Word)

/-- A register read depends on the register file alone. -/
theorem readReg_congr {s t : State} (h : t.regs = s.regs) (r : RegNum) : readReg t r = readReg s r := by
  simp [readReg, h]

@[simp] theorem readReg_zero : readReg s 0#5 = 0#32 := by simp [readReg]
@[simp] theorem readReg_setPc : readReg (setPc s v) r = readReg s r := rfl
@[simp] theorem readReg_advance : readReg (advance s) r = readReg s r := rfl
@[simp] theorem readReg_poke (a : Word) (n : Size) : readReg (poke s a n v) r = readReg s r := rfl
@[simp] theorem readReg_takeException (w : Word) : readReg (takeException s v w) r = readReg s r := rfl
@[simp] theorem readReg_raiseHalt : readReg (raiseHalt s) r = readReg s r := rfl

theorem readReg_writeReg :
    readReg (writeReg s r v) q = if q = r ∧ r ≠ 0#5 then v else readReg s q := by
  by_cases hr : r = 0#5
  · simp [hr]
  · by_cases hq : q = 0#5
    · subst hq; simp [Ne.symm hr]
    · have hne : r.toNat = q.toNat ↔ q = r := by rw [eq_comm, BitVec.toNat_inj]
      simp [readReg, writeReg, hr, hq, Vector.getElem_set, hne]

@[simp] theorem readReg_writeReg_same (h : r ≠ 0#5) : readReg (writeReg s r v) r = v := by
  simp [readReg_writeReg, h]

@[simp] theorem readReg_writeReg_other (h : q ≠ r) : readReg (writeReg s r v) q = readReg s q := by
  simp [readReg_writeReg, h]

/-- Rd and Rd+1 are two registers. -/
theorem next_reg_ne : r ≠ r + 1#5 := by
  intro h
  have := congrArg BitVec.toNat h
  simp [BitVec.toNat_add] at this
  omega

/-- Rd+1 is no R0 unless Rd is R31. -/
theorem next_reg_ne_zero (h : r ≠ 31#5) : r + 1#5 ≠ 0#5 := by
  intro h'
  have h1 := congrArg BitVec.toNat h'
  have h2 : r.toNat ≠ 31 := fun e => h (BitVec.eq_of_toNat_eq e)
  simp [BitVec.toNat_add] at h1
  omega

/-- Everything a pair of writes can do to a register (R104). -/
theorem readReg_writePair :
    readReg (writePair s r lo hi) q =
      if r ≠ 31#5 ∧ q = r + 1#5 then hi else if q = r ∧ r ≠ 0#5 then lo else readReg s q := by
  unfold writePair
  by_cases h : r = 31#5
  · simp [h, readReg_writeReg]
  · simp [h, readReg_writeReg, next_reg_ne_zero r h]

/-- Slot 0 of the register file, which no read sees, is never written. -/
@[simp] theorem writeReg_slotZero : (writeReg s r v).regs[0] = s.regs[0] := by
  by_cases hr : r = 0#5
  · simp [hr]
  · have : r.toNat ≠ 0 := fun e => hr (BitVec.eq_of_toNat_eq e)
    simp [writeReg, hr, this]

@[simp] theorem writePair_slotZero : (writePair s r lo hi).regs[0] = s.regs[0] := by
  unfold writePair; split <;> simp

end Sys2Proof.Machine
end

