-- ==== Sys2Proof/Laws/Ops.lean ====
section
/-! SUPPORT. What each shared operation can do, said once, and what exec can answer. -/

namespace Sys2Proof.Machine

/-! ### Alignment -/

theorem aligned_iff {w : Word} : w.aligned = true ↔ w.toNat % 4 = 0 := by simp [Word.aligned]

theorem aligned_add {a b : Word} (ha : a.aligned = true) (hb : b.aligned = true) : (a + b).aligned = true := by
  rw [aligned_iff] at *
  rw [BitVec.toNat_add]; omega

theorem aligned_four : Word.aligned 4#32 = true := rfl

theorem aligned_mul_four (w : Word) : (w * 4#32).aligned = true := by
  rw [aligned_iff, BitVec.toNat_mul]; simp

theorem aligned_branchTarget {s : State} (imm : Imm16) (h : s.pc.aligned = true) :
    (branchTarget s imm).aligned = true := aligned_add h (aligned_mul_four _)

theorem aligned_jumpTarget {s : State} (imm : Imm26) (h : s.pc.aligned = true) :
    (jumpTarget s imm).aligned = true := aligned_add h (aligned_mul_four _)

theorem aligned_callTarget (imm : Imm26) : (callTarget imm).aligned = true := aligned_mul_four _

/-! ### Accesses -/

/-- An access raises no fault exactly when it is aligned and each of its bytes is let through (R46, R47). -/
theorem accessFault_none_iff {s : State} {kind : AccessKind} {a : Word} {n : Size} :
    accessFault s kind a n = none ↔
      a.toNat % n.bytes = 0 ∧ ∀ i, i < n.bytes → mapAllows s.cfg kind (a.toNat + i) = true := by
  rw [← mapAllowsAll_iff]
  unfold accessFault
  split
  · simp_all
  · split <;> simp_all

/-- An access raises no other fault than the two of R46 and R41, the first tested first (R47, R237). -/
theorem accessFault_some_iff {s : State} {kind : AccessKind} {a : Word} {n : Size} {f : Fault} :
    accessFault s kind a n = some f ↔
      (a.toNat % n.bytes ≠ 0 ∧ f = .misalignedData) ∨
      (a.toNat % n.bytes = 0 ∧ f = .accessNotAdmitted ∧
        ∃ i, i < n.bytes ∧ mapAllows s.cfg kind (a.toNat + i) = false) := by
  have h := @mapAllowsAll_iff s.cfg kind a.toNat n.bytes
  unfold accessFault
  split
  · rename_i h1
    constructor
    · intro hf; cases hf; exact .inl ⟨h1, rfl⟩
    · rintro (⟨-, rfl⟩ | ⟨h2, -⟩)
      · rfl
      · exact absurd h2 h1
  · rename_i h1
    have h1 : a.toNat % n.bytes = 0 := by simpa using h1
    split
    · rename_i h2
      constructor
      · intro hf; cases hf
      · rintro (⟨h3, -⟩ | ⟨-, -, i, hi, hf⟩)
        · exact absurd h1 h3
        · rw [h.1 h2 i hi] at hf; cases hf
    · rename_i h2
      have h3 : ∃ i, i < n.bytes ∧ mapAllows s.cfg kind (a.toNat + i) = false := by
        by_contra hc
        exact h2 (h.2 fun i hi => by
          by_contra hx
          exact hc ⟨i, hi, by simpa using hx⟩)
      constructor
      · intro hf; cases hf; exact .inr ⟨h1, rfl, h3⟩
      · rintro (⟨h4, -⟩ | ⟨-, rfl, -⟩)
        · exact absurd h1 h4
        · rfl

/-- The bytes of an aligned access lie below 2^32 (R47). -/
theorem access_below {a : Word} {n : Size} (h : a.toNat % n.bytes = 0) : a.toNat + n.bytes ≤ 4294967296 := by
  have := a.isLt
  cases n <;> simp only [Size.bytes] at * <;> omega

theorem load_of_allowed {s : State} {rd : RegNum} {a : Word} {n : Size} {f : Word → Word}
    (h : accessFault s .read a n = none) : load s rd a n f = .next (advance (writeReg s rd (f (peek s a n)))) := by
  simp [load, h, finish]

theorem load_of_fault {s : State} {rd : RegNum} {a : Word} {n : Size} {f : Word → Word} {e : Fault}
    (h : accessFault s .read a n = some e) : load s rd a n f = .fault e := by
  simp [load, h]

/-- Everything a load that answers a next state does (R47). -/
theorem load_next {s t : State} {rd : RegNum} {a : Word} {n : Size} {f : Word → Word}
    (h : load s rd a n f = .next t) :
    accessFault s .read a n = none ∧ t = advance (writeReg s rd (f (peek s a n))) := by
  unfold load at h
  split at h
  · cases h
  · rename_i hf
    exact ⟨hf, by simpa [finish] using h.symm⟩

theorem store_of_allowed {s : State} {a : Word} {n : Size} {v : Word}
    (h : accessFault s .write a n = none) : store s a n v = .next (advance (poke s a n v)) := by
  simp [store, h]

theorem store_of_fault {s : State} {a : Word} {n : Size} {v : Word} {e : Fault}
    (h : accessFault s .write a n = some e) : store s a n v = .fault e := by
  simp [store, h]

/-- Everything a store that answers a next state does (R48). -/
theorem store_next {s t : State} {a : Word} {n : Size} {v : Word} (h : store s a n v = .next t) :
    accessFault s .write a n = none ∧ t = advance (poke s a n v) := by
  unfold store at h
  split at h
  · cases h
  · rename_i hf
    exact ⟨hf, by simpa using h.symm⟩

/-! ### Control transfers -/

theorem transferChecked_next {s t : State} {target : Word} (h : transferChecked s target = .next t) :
    target.aligned = true ∧ t = setPc s target := by
  unfold transferChecked transfer at h
  split at h
  · exact ⟨‹_›, by simpa using h.symm⟩
  · cases h

theorem transferChecked_of_aligned {s : State} {target : Word} (h : target.aligned = true) :
    transferChecked s target = .next (setPc s target) := by
  simp [transferChecked, transfer, h]

/-- A conditional branch always goes on (R164). -/
theorem branchIf_eq (s : State) (taken : Bool) (imm : Imm16) :
    branchIf s taken imm = .next (setPc s (if taken then branchTarget s imm else s.pc + 4#32)) := by
  cases taken <;> rfl

theorem finishDivision_next {s t : State} {rd : RegNum} {r : Except Fault (Word × Word)}
    (h : finishDivision s rd r = .next t) :
    ∃ quot rem, r = .ok (quot, rem) ∧ t = advance (writePair s rd quot rem) := by
  unfold finishDivision at h
  split at h
  · cases h
  · exact ⟨_, _, rfl, by simpa [finishPair] using h.symm⟩

theorem returnFromException_next {s t : State} (h : returnFromException s = .next t) :
    ∃ target, s.epc = some target ∧ target.aligned = true ∧ t = setPc s target := by
  unfold returnFromException at h
  split at h
  · cases h
  · exact ⟨_, ‹_›, transferChecked_next h⟩

/-! ### What exec can answer -/

/-- The five things an instruction that goes on can do: write one register and advance; write a pair and advance;
store and advance; write a register at most and transfer, to an aligned target where `pc` is aligned; halt. -/
theorem exec_next_cases {i : Instr} {s t : State} (h : exec i s = .next t) :
    (∃ rd v, t = advance (writeReg s rd v)) ∨
    (∃ rd lo hi, t = advance (writePair s rd lo hi)) ∨
    (∃ a n v, accessFault s .write a n = none ∧ t = advance (poke s a n v)) ∨
    (∃ r v target, (s.pc.aligned = true → target.aligned = true) ∧ t = setPc (writeReg s r v) target) ∨
    (i = .halt ∧ t = raiseHalt s) := by
  have reg : ∀ {rd v}, finish s rd v = .next t →
      ∃ rd v, t = advance (writeReg s rd v) := fun h => ⟨_, _, by simpa [finish] using h.symm⟩
  have pair : ∀ {rd lo hi}, finishPair s rd lo hi = .next t →
      ∃ rd lo hi, t = advance (writePair s rd lo hi) := fun h => ⟨_, _, _, by simpa [finishPair] using h.symm⟩
  have branch : ∀ {c imm}, branchIf s c imm = .next t →
      ∃ r v target, (s.pc.aligned = true → target.aligned = true) ∧ t = setPc (writeReg s r v) target := by
    intro c imm h
    rw [branchIf_eq] at h
    refine ⟨0#5, 0#32, _, ?_, by simpa using h.symm⟩
    intro ha
    split
    · exact aligned_branchTarget imm ha
    · exact aligned_add ha aligned_four
  cases i <;> simp only [exec] at h
  case add | addi | sub | subi | lui | sll | slli | srl | srli | and | andi | or | ori | nor | xor => exact .inl (reg h)
  case mulu | mul => exact .inr (.inl (pair h))
  case divu | div =>
    obtain ⟨q, r, -, h⟩ := finishDivision_next h
    exact .inr (.inl ⟨_, q, r, h⟩)
  case lb | lh | lw | lbu | lhu => exact .inl ⟨_, _, (load_next h).2⟩
  case sb | sh | sw => exact .inr (.inr (.inl ⟨_, _, _, store_next h⟩))
  case jr =>
    obtain ⟨ha, h⟩ := transferChecked_next h
    exact .inr (.inr (.inr (.inl ⟨0#5, 0#32, _, fun _ => ha, by simpa using h⟩)))
  case call =>
    exact .inr (.inr (.inr (.inl ⟨31#5, s.pc + 4#32, _, fun _ => aligned_callTarget _,
      by simpa [execCall, transfer] using h.symm⟩)))
  case b imm =>
    exact .inr (.inr (.inr (.inl ⟨0#5, 0#32, _, fun ha => aligned_jumpTarget imm ha,
      by simpa [execB, transfer] using h.symm⟩)))
  case beq | bne | bge | bgeu | bgt | bgtu | ble | bleu | blt | bltu => exact .inr (.inr (.inr (.inl (branch h))))
  case eret =>
    obtain ⟨target, -, ha, h⟩ := returnFromException_next h
    exact .inr (.inr (.inr (.inl ⟨0#5, 0#32, target, fun _ => ha, by simpa using h⟩)))
  case halt => exact .inr (.inr (.inr (.inr ⟨rfl, by simpa [execHalt] using h.symm⟩)))

end Sys2Proof.Machine
end

