-- ==== Sys2Proof/Laws/PerInstr.lean ====
section
/-! SUPPORT. Statements made per instruction. EncodeRow: the word of an instruction agrees with its row of the opcode
table, word & strict_mask = match (R79). -/

namespace Sys2Proof.Laws.EncodeRow

theorem and_ones6 (op : BitVec 6) : op &&& 63#6 = op := BitVec.and_allOnes

theorem mask_packR3 (op : BitVec 6) (d s t : RegNum) :
    packR3 op d s t &&& Format.strictMask .R3 = packR3 op 0#5 0#5 0#5 := by
  change (op ++ d ++ s ++ t ++ 0#11) &&& (63#6 ++ 0#5 ++ 0#5 ++ 0#5 ++ 2047#11) = (op ++ 0#5 ++ 0#5 ++ 0#5 ++ 0#11)
  simp only [BitVec.and_append, BitVec.and_zero]
  rw [and_ones6]; rfl

theorem mask_packI (op : BitVec 6) (d s : RegNum) (c : Imm16) :
    packI op d s c &&& Format.strictMask .I = packI op 0#5 0#5 0#16 := by
  change (op ++ d ++ s ++ c) &&& (63#6 ++ 0#5 ++ 0#5 ++ 0#16) = (op ++ 0#5 ++ 0#5 ++ 0#16)
  simp only [BitVec.and_append, BitVec.and_zero]
  rw [and_ones6]

theorem mask_packU (op : BitVec 6) (d : RegNum) (c : Imm16) :
    packU op d c &&& Format.strictMask .U = packU op 0#5 0#16 := by
  change (op ++ d ++ 0#5 ++ c) &&& (63#6 ++ 0#5 ++ 31#5 ++ 0#16) = (op ++ 0#5 ++ 0#5 ++ 0#16)
  simp only [BitVec.and_append, BitVec.and_zero]
  rw [and_ones6]; rfl

theorem mask_packR1 (op : BitVec 6) (d : RegNum) :
    packR1 op d &&& Format.strictMask .R1 = packR1 op 0#5 := by
  change (op ++ d ++ 0#21) &&& (63#6 ++ 0#5 ++ 2097151#21) = (op ++ 0#5 ++ 0#21)
  simp only [BitVec.and_append, BitVec.and_zero]
  rw [and_ones6]; rfl

theorem mask_packJ (op : BitVec 6) (c : Imm26) :
    packJ op c &&& Format.strictMask .J = packJ op 0#26 := by
  change (op ++ c) &&& (63#6 ++ 0#26) = (op ++ 0#26)
  simp only [BitVec.and_append, BitVec.and_zero]
  rw [and_ones6]

theorem mask_packN (op : BitVec 6) :
    packN op &&& Format.strictMask .N = packN op := by
  change (op ++ 0#26) &&& (63#6 ++ 67108863#26) = (op ++ 0#26)
  simp only [BitVec.and_append]
  rw [and_ones6]; rfl

/-- The instruction's word, masked with its format's strict mask, is the row's match word (R78, R79). -/
def Statement (i : Instr) : Prop := encode i &&& i.format.strictMask = i.matchWord

theorem add (rd rs rt : RegNum) : Statement (.add rd rs rt) := mask_packR3 0b000000#6 rd rs rt
theorem addi (rd rs : RegNum) (imm : Imm16) : Statement (.addi rd rs imm) := mask_packI 0b100000#6 rd rs imm
theorem sub (rd rs rt : RegNum) : Statement (.sub rd rs rt) := mask_packR3 0b000001#6 rd rs rt
theorem subi (rd rs : RegNum) (imm : Imm16) : Statement (.subi rd rs imm) := mask_packI 0b100001#6 rd rs imm
theorem mulu (rd rs rt : RegNum) : Statement (.mulu rd rs rt) := mask_packR3 0b000010#6 rd rs rt
theorem mul (rd rs rt : RegNum) : Statement (.mul rd rs rt) := mask_packR3 0b000011#6 rd rs rt
theorem divu (rd rs rt : RegNum) : Statement (.divu rd rs rt) := mask_packR3 0b000100#6 rd rs rt
theorem div (rd rs rt : RegNum) : Statement (.div rd rs rt) := mask_packR3 0b000101#6 rd rs rt
theorem lui (rd : RegNum) (imm : Imm16) : Statement (.lui rd imm) := mask_packU 0b000110#6 rd imm
theorem sll (rd rs rt : RegNum) : Statement (.sll rd rs rt) := mask_packR3 0b000111#6 rd rs rt
theorem slli (rd rs : RegNum) (imm : Imm16) : Statement (.slli rd rs imm) := mask_packI 0b101011#6 rd rs imm
theorem srl (rd rs rt : RegNum) : Statement (.srl rd rs rt) := mask_packR3 0b001000#6 rd rs rt
theorem srli (rd rs : RegNum) (imm : Imm16) : Statement (.srli rd rs imm) := mask_packI 0b101100#6 rd rs imm
theorem and (rd rs rt : RegNum) : Statement (.and rd rs rt) := mask_packR3 0b001001#6 rd rs rt
theorem andi (rd rs : RegNum) (imm : Imm16) : Statement (.andi rd rs imm) := mask_packI 0b101001#6 rd rs imm
theorem or (rd rs rt : RegNum) : Statement (.or rd rs rt) := mask_packR3 0b001010#6 rd rs rt
theorem ori (rd rs : RegNum) (imm : Imm16) : Statement (.ori rd rs imm) := mask_packI 0b101010#6 rd rs imm
theorem nor (rd rs rt : RegNum) : Statement (.nor rd rs rt) := mask_packR3 0b001011#6 rd rs rt
theorem xor (rd rs rt : RegNum) : Statement (.xor rd rs rt) := mask_packR3 0b001100#6 rd rs rt
theorem lb (rd rs : RegNum) (imm : Imm16) : Statement (.lb rd rs imm) := mask_packI 0b001101#6 rd rs imm
theorem lh (rd rs : RegNum) (imm : Imm16) : Statement (.lh rd rs imm) := mask_packI 0b001110#6 rd rs imm
theorem lw (rd rs : RegNum) (imm : Imm16) : Statement (.lw rd rs imm) := mask_packI 0b001111#6 rd rs imm
theorem lbu (rd rs : RegNum) (imm : Imm16) : Statement (.lbu rd rs imm) := mask_packI 0b010000#6 rd rs imm
theorem lhu (rd rs : RegNum) (imm : Imm16) : Statement (.lhu rd rs imm) := mask_packI 0b010001#6 rd rs imm
theorem sb (rd rs : RegNum) (imm : Imm16) : Statement (.sb rd rs imm) := mask_packI 0b010010#6 rd rs imm
theorem sh (rd rs : RegNum) (imm : Imm16) : Statement (.sh rd rs imm) := mask_packI 0b010011#6 rd rs imm
theorem sw (rd rs : RegNum) (imm : Imm16) : Statement (.sw rd rs imm) := mask_packI 0b010100#6 rd rs imm
theorem jr (rd : RegNum) : Statement (.jr rd) := mask_packR1 0b010110#6 rd
theorem call (imm : Imm26) : Statement (.call imm) := mask_packJ 0b011101#6 imm
theorem b (imm : Imm26) : Statement (.b imm) := mask_packJ 0b010101#6 imm
theorem beq (rd rs : RegNum) (imm : Imm16) : Statement (.beq rd rs imm) := mask_packI 0b010111#6 rd rs imm
theorem bne (rd rs : RegNum) (imm : Imm16) : Statement (.bne rd rs imm) := mask_packI 0b011000#6 rd rs imm
theorem bge (rd rs : RegNum) (imm : Imm16) : Statement (.bge rd rs imm) := mask_packI 0b011001#6 rd rs imm
theorem bgeu (rd rs : RegNum) (imm : Imm16) : Statement (.bgeu rd rs imm) := mask_packI 0b100010#6 rd rs imm
theorem bgt (rd rs : RegNum) (imm : Imm16) : Statement (.bgt rd rs imm) := mask_packI 0b011010#6 rd rs imm
theorem bgtu (rd rs : RegNum) (imm : Imm16) : Statement (.bgtu rd rs imm) := mask_packI 0b100011#6 rd rs imm
theorem ble (rd rs : RegNum) (imm : Imm16) : Statement (.ble rd rs imm) := mask_packI 0b011011#6 rd rs imm
theorem bleu (rd rs : RegNum) (imm : Imm16) : Statement (.bleu rd rs imm) := mask_packI 0b100100#6 rd rs imm
theorem blt (rd rs : RegNum) (imm : Imm16) : Statement (.blt rd rs imm) := mask_packI 0b011100#6 rd rs imm
theorem bltu (rd rs : RegNum) (imm : Imm16) : Statement (.bltu rd rs imm) := mask_packI 0b100101#6 rd rs imm
theorem eret : Statement (.eret) := mask_packN 0b111110#6
theorem halt : Statement (.halt) := mask_packN 0b111111#6

end Sys2Proof.Laws.EncodeRow
end

