-- ==== Sys2Proof/Laws/Program.lean ====
section
/-! SUPPORT. What the assembly of a file can do: segments keep their own addresses, and every line keeps the canonical
form of memory. -/

namespace Sys2Proof.Machine

/-- Changing one segment's address changes that one's and no other's. -/
theorem lookup_setPlace (segment l : String) (next : Nat) (places : List (String × Nat)) :
    (setPlace segment next places).lookup l =
      if l = segment then (places.lookup segment).map fun _ => next else places.lookup l := by
  induction places with
  | nil => simp [setPlace]
  | cons e places ih =>
    obtain ⟨k, p⟩ := e
    by_cases hk : k = segment
    · subst hk
      by_cases hl : l = k
      · subst hl; simp [setPlace]
      · simp [setPlace, List.lookup_cons, hl, ih, beq_false_of_ne hl]
    · by_cases hl : l = segment
      · subst hl
        have : l ≠ k := fun e => hk e.symm
        simp [setPlace, List.lookup_cons, hk, ih, beq_false_of_ne this]
      · simp [setPlace, List.lookup_cons, hk, hl, ih]

theorem layProgram_wf {o : ByteOrder} {m : Memory} (is : List Instr) (a : Nat) (h : m.wf = true) :
    (layProgram o m a is).wf = true := by
  induction is generalizing m a with
  | nil => exact h
  | cons i is ih => exact ih (a + 4) (writeBytes_wf _ h)

/-- Everything a directive that is laid down does to memory. -/
theorem layDirective_some {o : ByteOrder} {m : Memory} {a : Nat} {d : Directive} {r : Memory × Nat}
    (h : layDirective o m a d = some r) :
    ∃ bs, directiveBytes o d = some bs ∧ r = (m.writeBytes a bs, wrapAddr (a + bs.length + directiveReserves d)) := by
  obtain ⟨bs, hb, hr⟩ := Option.map_eq_some_iff.1 h
  exact ⟨bs, hb, hr.symm⟩

@[simp] theorem laid_mem (a : Assembly) (r : Memory × Nat) : (a.laid r).mem = r.1 := rfl
@[simp] theorem laid_places (a : Assembly) (r : Memory × Nat) :
    (a.laid r).places = setPlace a.segment r.2 a.places := rfl
@[simp] theorem laid_segment (a : Assembly) (r : Memory × Nat) : (a.laid r).segment = a.segment := rfl
@[simp] theorem laid_constants (a : Assembly) (r : Memory × Nat) : (a.laid r).constants = a.constants := rfl
@[simp] theorem laid_labels (a : Assembly) (r : Memory × Nat) : (a.laid r).labels = a.labels := rfl
@[simp] theorem laid_exported (a : Assembly) (r : Memory × Nat) : (a.laid r).exported = a.exported := rfl

/-- Everything a data directive does: it is laid down at the current segment's address. -/
theorem layData_some {o : ByteOrder} {a b : Assembly} {d : Directive} (h : a.layData o d = some b) :
    ∃ p r, a.here = some p ∧ layDirective o a.mem p d = some r ∧ b = a.laid r := by
  obtain ⟨p, hp, h⟩ := Option.bind_eq_some_iff.1 h
  obtain ⟨r, hr, h⟩ := Option.map_eq_some_iff.1 h
  exact ⟨p, r, hp, hr, h.symm⟩

/-- Everything instructions laid down do. -/
theorem layInstrs_some {o : ByteOrder} {a b : Assembly} {is : List Instr} (h : a.layInstrs o is = some b) :
    ∃ p, a.here = some p ∧ b = a.laid (layProgram o a.mem p is, wrapAddr (p + 4 * is.length)) := by
  obtain ⟨p, hp, h⟩ := Option.map_eq_some_iff.1 h
  exact ⟨p, hp, h.symm⟩

theorem layData_wf {o : ByteOrder} {a b : Assembly} {d : Directive} (h : a.layData o d = some b)
    (hm : a.mem.wf = true) : b.mem.wf = true := by
  obtain ⟨p, r, -, hr, rfl⟩ := layData_some h
  obtain ⟨bs, -, rfl⟩ := layDirective_some hr
  exact writeBytes_wf bs hm

/-- A line that is accepted keeps memory in its canonical form. -/
theorem layLine_wf {o : ByteOrder} {labels : List String} {a b : Assembly} {l : Line}
    (h : layLine o labels a l = some b) (hm : a.mem.wf = true) : b.mem.wf = true := by
  have instrs : ∀ {is}, a.layInstrs o is = some b → b.mem.wf = true := fun h => by
    obtain ⟨p, -, rfl⟩ := layInstrs_some h
    exact layProgram_wf _ p hm
  cases l with
  | label name =>
    obtain ⟨p, -, rfl⟩ := Option.map_eq_some_iff.1 h
    exact hm
  | instr m ops =>
    obtain ⟨xs, -, h⟩ := Option.bind_eq_some_iff.1 h
    obtain ⟨i, -, h⟩ := Option.bind_eq_some_iff.1 h
    exact instrs h
  | pseudo m ops =>
    obtain ⟨xs, -, h⟩ := Option.bind_eq_some_iff.1 h
    obtain ⟨i, -, h⟩ := Option.bind_eq_some_iff.1 h
    exact instrs h
  | directive d =>
    simp only [layLine] at h
    split at h
    · cases d with
      | segment label =>
        obtain ⟨p, -, rfl⟩ := Option.map_eq_some_iff.1 h
        exact hm
      | global label => cases h; exact hm
      | define name value => cases h; exact hm
      | alloc n => exact layData_wf h hm
      | byte vs => exact layData_wf h hm
      | word vs => exact layData_wf h hm
      | string cs => exact layData_wf h hm
    · cases h

/-- The current segment's address moves and no other. -/
theorem laid_lookup_other (a : Assembly) (r : Memory × Nat) {l : String} (h : l ≠ a.segment) :
    (a.laid r).places.lookup l = a.places.lookup l := by
  simp [lookup_setPlace, h]

/-- A line that is no `.segment` stays in the current segment and moves no other segment's address (R216). -/
theorem layLine_stays {o : ByteOrder} {labels : List String} {a b : Assembly} {ln : Line}
    (h : layLine o labels a ln = some b) (hs : ∀ l, ln ≠ .directive (.segment l)) :
    b.segment = a.segment ∧ ∀ l, l ≠ a.segment → b.places.lookup l = a.places.lookup l := by
  have instrs : ∀ {is}, a.layInstrs o is = some b →
      b.segment = a.segment ∧ ∀ l, l ≠ a.segment → b.places.lookup l = a.places.lookup l := fun h => by
    obtain ⟨p, -, rfl⟩ := layInstrs_some h
    exact ⟨rfl, fun l hl => laid_lookup_other a _ hl⟩
  have data : ∀ {d}, a.layData o d = some b →
      b.segment = a.segment ∧ ∀ l, l ≠ a.segment → b.places.lookup l = a.places.lookup l := fun h => by
    obtain ⟨p, r, -, -, rfl⟩ := layData_some h
    exact ⟨rfl, fun l hl => laid_lookup_other a _ hl⟩
  cases ln with
  | label name =>
    obtain ⟨p, -, rfl⟩ := Option.map_eq_some_iff.1 h
    exact ⟨rfl, fun _ _ => rfl⟩
  | instr m ops =>
    obtain ⟨xs, -, h⟩ := Option.bind_eq_some_iff.1 h
    obtain ⟨i, -, h⟩ := Option.bind_eq_some_iff.1 h
    exact instrs h
  | pseudo m ops =>
    obtain ⟨xs, -, h⟩ := Option.bind_eq_some_iff.1 h
    obtain ⟨i, -, h⟩ := Option.bind_eq_some_iff.1 h
    exact instrs h
  | directive d =>
    simp only [layLine] at h
    split at h
    · cases d with
      | segment label => exact absurd rfl (hs label)
      | global label => cases h; exact ⟨rfl, fun _ _ => rfl⟩
      | define name value => cases h; exact ⟨rfl, fun _ _ => rfl⟩
      | alloc n => exact data h
      | byte vs => exact data h
      | word vs => exact data h
      | string cs => exact data h
    · cases h

/-- Lines laid down in two parts. -/
theorem layLines_append (o : ByteOrder) (labels : List String) (a : Assembly) (ls ls' : List Line) :
    layLines o labels a (ls ++ ls') = (layLines o labels a ls).bind fun b => layLines o labels b ls' := by
  induction ls generalizing a with
  | nil => rfl
  | cons l ls ih =>
    simp only [List.cons_append, layLines, Option.bind_assoc]
    congr 1
    funext b
    exact ih b

end Sys2Proof.Machine
end

