-- ==== Sys2Proof/Laws/Step.lean ====
section
/-! SUPPORT. What one step can do, said once. -/

namespace Sys2Proof.Machine

/-- Everything a step that answers a next state does: the CPU runs, the instruction at `pc` is fetched and decoded,
and it is executed (R27). -/
theorem step_next {s t : State} (h : step s = .next t) :
    s.halted = false ∧ ∃ i, fetchInstr s = .ok i ∧ exec i s = .next t := by
  unfold step stepBody at h
  split at h
  · cases h
  · split at h
    · cases h
    · exact ⟨by simpa using ‹¬s.halted = true›, _, ‹_›, h⟩

theorem step_of_fetch {s : State} {i : Instr} (hh : s.halted = false) (h : fetchInstr s = .ok i) :
    step s = exec i s := by
  simp [step, stepBody, hh, h]

theorem step_of_fault {s : State} {f : Fault} (hh : s.halted = false) (h : fetchInstr s = .error f) :
    step s = .fault f := by
  simp [step, stepBody, hh, h]

/-- Everything a fetch that gives an instruction has tested (R57, R59, R82). -/
theorem fetchInstr_ok {s : State} {i : Instr} (h : fetchInstr s = .ok i) :
    s.pc.aligned = true ∧ mapAllowsAll s.cfg .fetch s.pc.toNat 4 = true ∧ anyAddr s.written s.pc.toNat 4 = false ∧
      decode (peek s s.pc .word) = .ok i := by
  unfold fetchInstr fetchWord at h
  by_cases h1 : s.pc.aligned = true <;> by_cases h2 : mapAllowsAll s.cfg .fetch s.pc.toNat 4 = true <;>
    by_cases h3 : anyAddr s.written s.pc.toNat 4 = true <;> simp [h1, h2, h3] at h
  refine ⟨h1, h2, by simpa using h3, ?_⟩
  split at h
  · cases h
  · rename_i heq; cases h; exact heq

theorem fetchInstr_of {s : State} {i : Instr} (h1 : s.pc.aligned = true)
    (h2 : mapAllowsAll s.cfg .fetch s.pc.toNat 4 = true) (h3 : anyAddr s.written s.pc.toNat 4 = false)
    (h4 : decode (peek s s.pc .word) = .ok i) : fetchInstr s = .ok i := by
  simp [fetchInstr, fetchWord, h1, h2, h3, h4]

end Sys2Proof.Machine
end

