-- ==== Sys2Proof/Tests/Slice0.lean ====
section
/-! SUPPORT. Tests and witnesses. "T<n>" and "S<n>" are the vectors of spec/95_test_vectors.md, from which each
expected result is taken; a word written in binary is laid out by hand from the formats of spec/30_encoding.md. -/

namespace Sys2Proof.Tests
open Sys2Proof.Machine

/-! ### Small states -/

/-- The map of the spec's vectors: the instruction word at 0x100, the data bytes 0x200 .. 0x207. -/
def vectorMap : List Region := [⟨0x100, 4, false, false, true⟩, ⟨0x200, 8, true, true, false⟩]

/-- The data of the spec's load vectors. -/
def loadData : Memory :=
  [(0x200, 0x81#8), (0x201, 0x7F#8), (0x202, 0xFE#8), (0x203, 0xFF#8), (0x204, 0x0D#8), (0x205, 0xF0#8),
   (0x206, 0xFE#8), (0x207, 0xCA#8)]

/-- A state at a `pc`, under a byte order, with the given memory and registers. -/
def start (o : ByteOrder) (pc : Word) (mem : Memory) (regs : List (RegNum × Word)) : State :=
  regs.foldl (fun s p => writeReg s p.1 p.2)
    { State.launch ⟨o, vectorMap, 0x100#32⟩ (Vector.replicate 32 0) mem none with pc := pc }

/-- A state at 0x100 with registers only. -/
def at100 (regs : List (RegNum × Word)) : State := start .little 0x100#32 [] regs

/-- One step with the word placed at `pc`. -/
def run (s : State) (w : Nat) : Result := step (s.withFetchWord 32 w)

def next? : Result → Option State
  | .next t => some t
  | .fault _ => none
  | .refused _ => none

def fault? : Result → Option Fault
  | .next _ => none
  | .fault f => some f
  | .refused _ => none

/-- The registers named and `pc` after the step. -/
def sees (r : Result) (regs : List RegNum) : Option (List Word × Word) :=
  (next? r).map fun t => (regs.map (readReg t), t.pc)

/-- `pc` after the step. -/
def pcAfter (r : Result) : Option Word := (next? r).map fun t => t.pc

/-- Bytes 0x200 .. 0x207 and `pc` after the step. -/
def bytesAfter (r : Result) : Option (List Byte × Word) :=
  (next? r).map fun t => (t.mem.readBytes 0x200 8, t.pc)

/-! ### Decoding: every constructor, its word in binary (R73, R78) -/

theorem test_decode_arithmetic : decode 0b000000_00011_00001_00010_00000000000#32 = .ok (.add 3#5 1#5 2#5) ∧
    decode 0b100000_00101_00110_1111111111111110#32 = .ok (.addi 5#5 6#5 0xFFFE#16) ∧
    decode 0b000001_00011_00001_00010_00000000000#32 = .ok (.sub 3#5 1#5 2#5) ∧
    decode 0b100001_00001_00010_0000000000000001#32 = .ok (.subi 1#5 2#5 1#16) ∧
    decode 0b000010_11000_00001_00010_00000000000#32 = .ok (.mulu 24#5 1#5 2#5) ∧
    decode 0b000011_01000_00101_00110_00000000000#32 = .ok (.mul 8#5 5#5 6#5) ∧
    decode 0b000100_00110_00100_00101_00000000000#32 = .ok (.divu 6#5 4#5 5#5) ∧
    decode 0b000101_00110_00100_00101_00000000000#32 = .ok (.div 6#5 4#5 5#5) := by decide

theorem test_decode_logic : decode 0b000110_00001_00000_0001000100100010#32 = .ok (.lui 1#5 0x1122#16) ∧
    decode 0b000111_00011_00001_00010_00000000000#32 = .ok (.sll 3#5 1#5 2#5) ∧
    decode 0b101011_00011_00001_1111111111100100#32 = .ok (.slli 3#5 1#5 0xFFE4#16) ∧
    decode 0b001000_00011_00001_00010_00000000000#32 = .ok (.srl 3#5 1#5 2#5) ∧
    decode 0b101100_00011_00001_0000000000000100#32 = .ok (.srli 3#5 1#5 4#16) ∧
    decode 0b001001_00011_00001_00010_00000000000#32 = .ok (.and 3#5 1#5 2#5) ∧
    decode 0b101001_00011_00001_1111111100000000#32 = .ok (.andi 3#5 1#5 0xFF00#16) ∧
    decode 0b001010_00011_00001_00010_00000000000#32 = .ok (.or 3#5 1#5 2#5) ∧
    decode 0b101010_00100_00000_1011111011101111#32 = .ok (.ori 4#5 0#5 0xBEEF#16) ∧
    decode 0b001011_01101_00110_00111_00000000000#32 = .ok (.nor 13#5 6#5 7#5) ∧
    decode 0b001100_00011_00001_00010_00000000000#32 = .ok (.xor 3#5 1#5 2#5) := by decide

theorem test_decode_load_store : decode 0b001101_00010_00001_1111111111111111#32 = .ok (.lb 2#5 1#5 0xFFFF#16) ∧
    decode 0b001110_00010_00001_0000000000000010#32 = .ok (.lh 2#5 1#5 2#16) ∧
    decode 0b001111_00010_00001_1111111111111100#32 = .ok (.lw 2#5 1#5 0xFFFC#16) ∧
    decode 0b010000_00010_00001_0000000000000011#32 = .ok (.lbu 2#5 1#5 3#16) ∧
    decode 0b010001_00010_00001_0000000000000010#32 = .ok (.lhu 2#5 1#5 2#16) ∧
    decode 0b010010_00001_00010_0000000000000011#32 = .ok (.sb 1#5 2#5 3#16) ∧
    decode 0b010011_00001_00010_0000000000000010#32 = .ok (.sh 1#5 2#5 2#16) ∧
    decode 0b010100_00001_00010_1111111111111100#32 = .ok (.sw 1#5 2#5 0xFFFC#16) := by decide

theorem test_decode_control : decode 0b010110_00101_000000000000000000000#32 = .ok (.jr 5#5) ∧
    decode 0b011101_11111111111111111111111110#32 = .ok (.call 0x3FFFFFE#26) ∧
    decode 0b010101_11111111111111111111111100#32 = .ok (.b 0x3FFFFFC#26) ∧
    decode 0b010111_00101_00000_0000000000000101#32 = .ok (.beq 5#5 0#5 5#16) ∧
    decode 0b011000_00001_00000_1111111111111110#32 = .ok (.bne 1#5 0#5 0xFFFE#16) ∧
    decode 0b011001_00001_00010_1000000000000000#32 = .ok (.bge 1#5 2#5 0x8000#16) ∧
    decode 0b100010_00001_00010_0000000000000011#32 = .ok (.bgeu 1#5 2#5 3#16) ∧
    decode 0b011010_00001_00010_0000000000000011#32 = .ok (.bgt 1#5 2#5 3#16) ∧
    decode 0b100011_00001_00010_0000000000000011#32 = .ok (.bgtu 1#5 2#5 3#16) ∧
    decode 0b011011_00001_00010_0000000000000011#32 = .ok (.ble 1#5 2#5 3#16) ∧
    decode 0b100100_00001_00010_0000000000000011#32 = .ok (.bleu 1#5 2#5 3#16) ∧
    decode 0b011100_00001_00010_1111111111111111#32 = .ok (.blt 1#5 2#5 0xFFFF#16) ∧
    decode 0b100101_00001_00010_0000000000000011#32 = .ok (.bltu 1#5 2#5 3#16) := by decide

theorem test_decode_system : decode 0b111110_00000000000000000000000000#32 = .ok .eret ∧
    decode 0b111111_00000000000000000000000000#32 = .ok .halt := by decide

/-- T173, T176, T179 -/
theorem test_decode_refuses_unassigned_opcodes :
    decode 0x78000000#32 = .error .illegalOpcode ∧ decode 0xA0000000#32 = .error .illegalOpcode ∧
    decode 0xF4000000#32 = .error .illegalOpcode ∧ decode 0x98FFFFFF#32 = .error .illegalOpcode := by decide

/-- T172, T180 to T185 -/
theorem test_decode_refuses_reserved_bits :
    decode 0x00611001#32 = .error .reservedBitsNonzero ∧ decode 0x00611400#32 = .error .reservedBitsNonzero ∧
    decode 0x18211122#32 = .error .reservedBitsNonzero ∧ decode 0x58B00000#32 = .error .reservedBitsNonzero ∧
    decode 0xF8000001#32 = .error .reservedBitsNonzero ∧ decode 0xFFFFFFFF#32 = .error .reservedBitsNonzero := by decide

theorem test_table_word_is_the_fetched_word :
    decodeTableWord 32 0x80A5FFFF = some (.addi 5#5 5#5 0xFFFF#16) ∧ decodeTableWord 32 0x7C000000 = none := by decide

/-! ### WellFormed: each check refuses an ill-formed operand (U21, R200) -/

theorem test_register_number_out_of_range : assembleLine .ADD [.reg 32, .reg 1, .reg 2] = none ∧
    assembleLine .ADD [.reg 31, .reg 1, .reg 2] = some (.add 31#5 1#5 2#5) := by decide

theorem test_const16_out_of_range : assembleLine .ADDI [.reg 1, .reg 0, .const16 65536] = none ∧
    assembleLine .ADDI [.reg 1, .reg 0, .const16 65535] = some (.addi 1#5 0#5 0xFFFF#16) := by decide

theorem test_const26_out_of_range : assembleLine .CALL [.const26 67108864] = none ∧
    assembleLine .CALL [.const26 67108863] = some (.call 0x3FFFFFF#26) := by decide

theorem test_off16_out_of_range :
    assembleLine .LW [.reg 2, .off16 32768, .reg 1] = none ∧ assembleLine .LW [.reg 2, .off16 (-32769), .reg 1] = none ∧
    assembleLine .SW [.reg 2, .off16 (-32768), .reg 1] = some (.sw 1#5 2#5 0x8000#16) := by decide

theorem test_off26_out_of_range :
    assembleLine .B [.off26 33554432] = none ∧ assembleLine .B [.off26 (-33554433)] = none ∧
    assembleLine .B [.off26 (-33554432)] = some (.b 0x2000000#26) := by decide

theorem test_operands_of_another_form :
    assembleLine .ADD [.reg 1, .reg 2, .const16 3] = none ∧ assembleLine .JR [] = none ∧
    assembleLine .HALT [.reg 0] = none := by decide

theorem test_const32_out_of_range : pseudoLine .LI [.reg 4, .const32 4294967296] = none ∧
    pseudoLine .LI [.reg 4, .const32 4294967295] = some (.li 4#5 0xFFFFFFFF#32) := by decide

/-! ### Arithmetic -/

/-- T2, `ADD R3, R1, R2` -/
theorem test_add_wraps : sees (run (at100 [(1#5, 0xFFFFFFFF#32), (2#5, 1#32)]) 0x00611000) [3#5] =
      some ([0#32], 0x104#32) := by decide

/-- T4, `ADD R1, R1, R1` -/
theorem test_add_source_is_destination : sees (run (at100 [(1#5, 0x80000001#32)]) 0x00210800) [1#5] =
      some ([2#32], 0x104#32) := by decide

/-- T7, `ADDI R5, R5, 0xFFFF` -/
theorem test_addi_zero_extends : sees (run (at100 [(5#5, 1#32)]) 0x80A5FFFF) [5#5] =
      some ([0x10000#32], 0x104#32) := by decide

/-- T8, `ADDI R5, R5, 1` -/
theorem test_addi_wraps : sees (run (at100 [(5#5, 0xFFFFFFFF#32)]) 0x80A50001) [5#5] =
      some ([0#32], 0x104#32) := by decide

/-- T10, `SUB R3, R1, R2` -/
theorem test_sub_borrows : sees (run (at100 [(1#5, 5#32), (2#5, 7#32)]) 0x04611000) [3#5] =
      some ([0xFFFFFFFE#32], 0x104#32) := by decide

/-- T12, `SUB R3, R1, R2` -/
theorem test_sub_signed_overflow : sees (run (at100 [(1#5, 0x80000000#32), (2#5, 1#32)]) 0x04611000) [3#5] =
      some ([0x7FFFFFFF#32], 0x104#32) := by decide

/-- T14, `SUBI R2, R0, 1` -/
theorem test_subi_borrows : sees (run (at100 []) 0x84400001) [2#5] =
      some ([0xFFFFFFFF#32], 0x104#32) := by decide

/-- T15, `SUBI R2, R1, 0xFFFF` -/
theorem test_subi_zero_extends : sees (run (at100 [(1#5, 0x10000#32)]) 0x8441FFFF) [2#5] =
      some ([1#32], 0x104#32) := by decide

/-- T17, `MULU R24, R1, R2` -/
theorem test_mulu_both_halves :
    sees (run (at100 [(1#5, 0xFFFFFFFF#32), (2#5, 0xFFFFFFFF#32)]) 0x0B011000) [24#5, 25#5] =
      some ([1#32, 0xFFFFFFFE#32], 0x104#32) := by decide

/-- T21, `MULU R4, R4, R5` -/
theorem test_mulu_overwrites_its_sources : sees (run (at100 [(4#5, 6#32), (5#5, 7#32)]) 0x08842800) [4#5, 5#5] =
      some ([0x2A#32, 0#32], 0x104#32) := by decide

/-- T23, `MUL R8, R5, R6` -/
theorem test_mul_is_signed : sees (run (at100 [(5#5, 0xFFFFFFFE#32), (6#5, 3#32)]) 0x0D053000) [8#5, 9#5] =
      some ([0xFFFFFFFA#32, 0xFFFFFFFF#32], 0x104#32) := by decide

/-- T27, `MUL R8, R5, R6` -/
theorem test_mul_of_the_most_negative :
    sees (run (at100 [(5#5, 0x80000000#32), (6#5, 0xFFFFFFFF#32)]) 0x0D053000) [8#5, 9#5] =
      some ([0x80000000#32, 0#32], 0x104#32) := by decide

/-- T31, `DIVU R6, R4, R5` -/
theorem test_divu_is_unsigned : sees (run (at100 [(4#5, 0xFFFFFFFF#32), (5#5, 2#32)]) 0x10C42800) [6#5, 7#5] =
      some ([0x7FFFFFFF#32, 1#32], 0x104#32) := by decide

/-- T34, `DIVU R0, R4, R5` -/
theorem test_divu_into_r0_leaves_the_remainder :
    sees (run (at100 [(4#5, 0x30#32), (5#5, 0x12#32)]) 0x10042800) [1#5] =
      some ([0xC#32], 0x104#32) := by decide

/-- T40, `DIV R6, R4, R5` -/
theorem test_div_of_the_largest : sees (run (at100 [(4#5, 0x7FFFFFFF#32), (5#5, 1#32)]) 0x14C42800) [6#5, 7#5] =
      some ([0x7FFFFFFF#32, 0#32], 0x104#32) := by decide

/-- T39, `DIV R6, R4, R5` -/
theorem test_div_overflow :
    fault? (run (at100 [(4#5, 0x80000000#32), (5#5, 0xFFFFFFFF#32)]) 0x14C42800) = some .divideOverflow := by decide

/-! ### Two results in R31 and R0 (R104) -/

/-- T18, `MULU R31, R1, R2` -/
theorem test_mulu_into_r31_loses_hi :
    sees (run (at100 [(1#5, 0xFFFFFFFF#32), (2#5, 0xFFFFFFFF#32)]) 0x0BE11000) [31#5] =
      some ([1#32], 0x104#32) := by decide

/-- T19, `MULU R0, R1, R2` -/
theorem test_mulu_into_r0_keeps_hi :
    sees (run (at100 [(1#5, 0xFFFFFFFF#32), (2#5, 0xFFFFFFFF#32)]) 0x08011000) [1#5] =
      some ([0xFFFFFFFE#32], 0x104#32) := by decide

/-! ### Signed division under each named candidate (R109): its own rounding is open, so the rounding is an argument -/

/-- `SdivTruncates` as a function. -/
def truncating (a b : Int) : Int × Int :=
  (a.sign * b.sign * ((a.natAbs / b.natAbs : Nat) : Int),
    a - a.sign * b.sign * ((a.natAbs / b.natAbs : Nat) : Int) * b)

/-- `SdivFloors` as a function. -/
def flooring (a b : Int) : Int × Int := (a.fdiv b, a - a.fdiv b * b)

/-- T42, T44, T46, T50, T52, T54 -/
theorem test_div_truncating : divideSignedWith truncating 0xFFFFFFF9#32 2#32 = .ok (0xFFFFFFFD#32, 0xFFFFFFFF#32) ∧
    divideSignedWith truncating 7#32 0xFFFFFFFE#32 = .ok (0xFFFFFFFD#32, 1#32) ∧
    divideSignedWith truncating 0xFFFFFFF9#32 0xFFFFFFFE#32 = .ok (3#32, 0xFFFFFFFF#32) ∧
    divideSignedWith truncating 0x80000000#32 2#32 = .ok (0xC0000000#32, 0#32) ∧
    divideSignedWith truncating 1#32 0xFFFFFFFE#32 = .ok (0#32, 1#32) ∧
    divideSignedWith truncating 0x80000000#32 1#32 = .ok (0x80000000#32, 0#32) := by decide

/-- T43, T45, T47, T51, T53, T55 -/
theorem test_div_flooring : divideSignedWith flooring 0xFFFFFFF9#32 2#32 = .ok (0xFFFFFFFC#32, 1#32) ∧
    divideSignedWith flooring 7#32 0xFFFFFFFE#32 = .ok (0xFFFFFFFC#32, 0xFFFFFFFF#32) ∧
    divideSignedWith flooring 0xFFFFFFF9#32 0xFFFFFFFE#32 = .ok (3#32, 0xFFFFFFFF#32) ∧
    divideSignedWith flooring 0x80000000#32 2#32 = .ok (0xC0000000#32, 0#32) ∧
    divideSignedWith flooring 1#32 0xFFFFFFFE#32 = .ok (0xFFFFFFFF#32, 0xFFFFFFFF#32) ∧
    divideSignedWith flooring 0x80000000#32 1#32 = .ok (0x80000000#32, 0#32) := by decide

/-! ### Logic and shifts -/

/-- T58, `LUI R1, 0x1122` -/
theorem test_lui_clears_the_low_half : sees (run (at100 [(1#5, 0xFFFFFFFF#32)]) 0x18201122) [1#5] =
      some ([0x11220000#32], 0x104#32) := by decide

/-- T60, `LUI R0, 0xFFFF` -/
theorem test_lui_into_r0_is_dropped : pcAfter (run (at100 []) 0x1800FFFF) = some 0x104#32 := by decide

/-- T63, `SLL R3, R1, R2` -/
theorem test_sll_by_32_is_by_0 : sees (run (at100 [(1#5, 0xDEADBEEF#32), (2#5, 0x20#32)]) 0x1C611000) [3#5] =
      some ([0xDEADBEEF#32], 0x104#32) := by decide

/-- T64, `SLL R3, R1, R2` -/
theorem test_sll_takes_five_bits : sees (run (at100 [(1#5, 3#32), (2#5, 0xFFFFFFFF#32)]) 0x1C611000) [3#5] =
      some ([0x80000000#32], 0x104#32) := by decide

/-- T67, `SLLI R3, R1, 0xFFE4` -/
theorem test_slli_takes_five_bits : sees (run (at100 [(1#5, 0x80000001#32)]) 0xAC61FFE4) [3#5] =
      some ([0x10#32], 0x104#32) := by decide

/-- T70, `SLLI R3, R1, 31` -/
theorem test_slli_by_31 : sees (run (at100 [(1#5, 0xFFFFFFFF#32)]) 0xAC61001F) [3#5] =
      some ([0x80000000#32], 0x104#32) := by decide

/-- T71, `SRL R3, R1, R2` -/
theorem test_srl_fills_with_zeros : sees (run (at100 [(1#5, 0x80000000#32), (2#5, 4#32)]) 0x20611000) [3#5] =
      some ([0x8000000#32], 0x104#32) := by decide

/-- T74, `SRL R3, R1, R2` -/
theorem test_srl_takes_five_bits : sees (run (at100 [(1#5, 0xFFFFFFFF#32), (2#5, 0xFFFFFFE1#32)]) 0x20611000) [3#5] =
      some ([0x7FFFFFFF#32], 0x104#32) := by decide

/-- T76, `SRLI R3, R1, 36` -/
theorem test_srli_takes_five_bits : sees (run (at100 [(1#5, 0xF0000000#32)]) 0xB0610024) [3#5] =
      some ([0xF000000#32], 0x104#32) := by decide

/-- T77, `SRLI R3, R1, 31` -/
theorem test_srli_by_31 : sees (run (at100 [(1#5, 0xFFFFFFFF#32)]) 0xB061001F) [3#5] =
      some ([1#32], 0x104#32) := by decide

/-- T79, `AND R3, R1, R2` -/
theorem test_and : sees (run (at100 [(1#5, 0xFF0F#32), (2#5, 0xFF0#32)]) 0x24611000) [3#5] =
      some ([0xF00#32], 0x104#32) := by decide

/-- T82, `ANDI R3, R1, 0xFFFF` -/
theorem test_andi_zero_extends : sees (run (at100 [(1#5, 0xFFFFFFFF#32)]) 0xA461FFFF) [3#5] =
      some ([0xFFFF#32], 0x104#32) := by decide

/-- T83, `OR R3, R1, R2` -/
theorem test_or : sees (run (at100 [(1#5, 0xFF0F#32), (2#5, 0xFF0#32)]) 0x28611000) [3#5] =
      some ([0xFFFF#32], 0x104#32) := by decide

/-- T85, `ORI R3, R1, 0xFFFF` -/
theorem test_ori_keeps_the_upper_half : sees (run (at100 [(1#5, 0xABCD0000#32)]) 0xA861FFFF) [3#5] =
      some ([0xABCDFFFF#32], 0x104#32) := by decide

/-- T89, `NOR R3, R1, R2` -/
theorem test_nor : sees (run (at100 [(1#5, 0xFF0F#32), (2#5, 0xFF0#32)]) 0x2C611000) [3#5] =
      some ([0xFFFF0000#32], 0x104#32) := by decide

/-- T88, `NOR R3, R0, R0` -/
theorem test_nor_of_r0 : sees (run (at100 []) 0x2C600000) [3#5] =
      some ([0xFFFFFFFF#32], 0x104#32) := by decide

/-- T90, `XOR R3, R1, R2` -/
theorem test_xor : sees (run (at100 [(1#5, 0xFF0F#32), (2#5, 0xFF0#32)]) 0x30611000) [3#5] =
      some ([0xF0FF#32], 0x104#32) := by decide

/-- T91, `XOR R3, R1, R1` -/
theorem test_xor_of_itself : sees (run (at100 [(1#5, 0xDEADBEEF#32), (3#5, 5#32)]) 0x30610800) [3#5] =
      some ([0#32], 0x104#32) := by decide

/-! ### Loads -/

/-- T95, `LB R2, -1(R1)` -/
theorem test_lb_sign_extends_both_operands :
    sees (run (start .big 0x100#32 loadData [(1#5, 0x201#32)]) 0x3441FFFF) [2#5] =
      some ([0xFFFFFF81#32], 0x104#32) := by decide

/-- T94, `LB R2, 1(R1)` -/
theorem test_lb_positive : sees (run (start .little 0x100#32 loadData [(1#5, 0x200#32)]) 0x34410001) [2#5] =
      some ([0x7F#32], 0x104#32) := by decide

/-- T93, `LBU R2, 0(R1)` -/
theorem test_lbu_zero_extends : sees (run (start .little 0x100#32 loadData [(1#5, 0x200#32)]) 0x40410000) [2#5] =
      some ([0x81#32], 0x104#32) := by decide

/-- T97, `LBU R2, 3(R1)` -/
theorem test_lbu_offset : sees (run (start .big 0x100#32 loadData [(1#5, 0x200#32)]) 0x40410003) [2#5] =
      some ([0xFF#32], 0x104#32) := by decide

/-- T98, `LH R2, 2(R1)` -/
theorem test_lh_little : sees (run (start .little 0x100#32 loadData [(1#5, 0x200#32)]) 0x38410002) [2#5] =
      some ([0xFFFFFFFE#32], 0x104#32) := by decide

/-- T98, `LH R2, 2(R1)` -/
theorem test_lh_big : sees (run (start .big 0x100#32 loadData [(1#5, 0x200#32)]) 0x38410002) [2#5] =
      some ([0xFFFFFEFF#32], 0x104#32) := by decide

/-- T101, `LHU R2, 0(R1)` -/
theorem test_lhu_big : sees (run (start .big 0x100#32 loadData [(1#5, 0x200#32)]) 0x44410000) [2#5] =
      some ([0x817F#32], 0x104#32) := by decide

/-- T103, `LHU R2, 3(R1)` -/
theorem test_lhu_misaligned :
    fault? (run (start .little 0x100#32 loadData [(1#5, 0x200#32)]) 0x44410003) = some .misalignedData := by decide

/-- T106, `LW R2, 0(R2)` -/
theorem test_lw_little_base_is_destination :
    sees (run (start .little 0x100#32 loadData [(2#5, 0x204#32)]) 0x3C420000) [2#5] =
      some ([0xCAFEF00D#32], 0x104#32) := by decide

/-- T107, `LW R2, -4(R1)` -/
theorem test_lw_big_negative_offset : sees (run (start .big 0x100#32 loadData [(1#5, 0x208#32)]) 0x3C41FFFC) [2#5] =
      some ([0xDF0FECA#32], 0x104#32) := by decide

/-! ### Stores -/

/-- T112, `SB R2, 3(R1)` -/
theorem test_sb : bytesAfter (run (at100 [(1#5, 0x200#32), (2#5, 0x12345678#32)]) 0x48220003) =
      some ([0#8, 0#8, 0#8, 0x78#8, 0#8, 0#8, 0#8, 0#8], 0x104#32) := by decide

/-- T113, `SB R0, 1(R1)`, over the data of the load vectors -/
theorem test_sb_of_r0_writes_zero : bytesAfter (run (start .little 0x100#32 loadData [(1#5, 0x200#32)]) 0x48200001) =
      some ([0x81#8, 0#8, 0xFE#8, 0xFF#8, 0x0D#8, 0xF0#8, 0xFE#8, 0xCA#8], 0x104#32) := by decide

/-- T114, `SH R2, 2(R1)` -/
theorem test_sh_little : bytesAfter (run (at100 [(1#5, 0x200#32), (2#5, 0x12345678#32)]) 0x4C220002) =
      some ([0#8, 0#8, 0x78#8, 0x56#8, 0#8, 0#8, 0#8, 0#8], 0x104#32) := by decide

/-- T114, `SH R2, 2(R1)` -/
theorem test_sh_big : bytesAfter (run (start .big 0x100#32 [] [(1#5, 0x200#32), (2#5, 0x12345678#32)]) 0x4C220002) =
      some ([0#8, 0#8, 0x56#8, 0x78#8, 0#8, 0#8, 0#8, 0#8], 0x104#32) := by decide

/-- T117, `SW R2, -4(R1)` -/
theorem test_sw_little_negative_offset : bytesAfter (run (at100 [(1#5, 0x208#32), (2#5, 0x12345678#32)]) 0x5022FFFC) =
      some ([0#8, 0#8, 0#8, 0#8, 0x78#8, 0x56#8, 0x34#8, 0x12#8], 0x104#32) := by decide

/-- T118, `SW R1, 0(R1)` -/
theorem test_sw_big_base_is_data : bytesAfter (run (start .big 0x100#32 [] [(1#5, 0x200#32)]) 0x50210000) =
      some ([0#8, 0#8, 0x02#8, 0#8, 0#8, 0#8, 0#8, 0#8], 0x104#32) := by decide

/-! ### Control transfers -/

/-- T126, `JR R5` -/
theorem test_jr_last_word : pcAfter (run (at100 [(5#5, 0xFFFFFFFC#32)]) 0x58A00000) = some 0xFFFFFFFC#32 := by decide

/-- T125, `JR R5` -/
theorem test_jr_misaligned : fault? (run (at100 [(5#5, 0x42#32)]) 0x58A00000) = some .misalignedTarget := by decide

/-- T128, `CALL 67108863` -/
theorem test_call_field_is_unsigned : sees (run (at100 []) 0x77FFFFFF) [31#5] =
      some ([0x104#32], 0xFFFFFFC#32) := by decide

/-- T130, `CALL 4` -/
theorem test_call_link_wraps : sees (run (start .little 0xFFFFFFFC#32 [] []) 0x74000004) [31#5] =
      some ([0#32], 0x10#32) := by decide

/-- T135, `B -33554432` -/
theorem test_b_largest_backward : pcAfter (run (at100 []) 0x56000000) = some 0xF8000100#32 := by decide

/-- T136, `B 2` -/
theorem test_b_wraps : pcAfter (run (start .little 0xFFFFFFFC#32 [] []) 0x54000002) = some 4#32 := by decide

/-- T148, `BEQ R1, R2, 3` -/
theorem test_beq_equal :
    pcAfter (run (at100 [(1#5, 0x80000000#32), (2#5, 0x80000000#32)]) 0x5C220003) = some 0x10C#32 := by decide

/-- T138, `BEQ R1, R2, 3` -/
theorem test_beq_unequal :
    pcAfter (run (at100 [(1#5, 0xFFFFFFFF#32), (2#5, 1#32)]) 0x5C220003) = some 0x104#32 := by decide

/-- T139, `BNE R1, R2, 3` -/
theorem test_bne_unequal :
    pcAfter (run (at100 [(1#5, 0xFFFFFFFF#32), (2#5, 1#32)]) 0x60220003) = some 0x10C#32 := by decide

/-- T149, `BNE R1, R2, 3` -/
theorem test_bne_equal :
    pcAfter (run (at100 [(1#5, 0x80000000#32), (2#5, 0x80000000#32)]) 0x60220003) = some 0x104#32 := by decide

/-- T150, `BGE R1, R2, 3` -/
theorem test_bge_equal :
    pcAfter (run (at100 [(1#5, 0x80000000#32), (2#5, 0x80000000#32)]) 0x64220003) = some 0x10C#32 := by decide

/-- T140, `BGE R1, R2, 3` -/
theorem test_bge_is_signed :
    pcAfter (run (at100 [(1#5, 0xFFFFFFFF#32), (2#5, 1#32)]) 0x64220003) = some 0x104#32 := by decide

/-- T141, `BGEU R1, R2, 3` -/
theorem test_bgeu_is_unsigned :
    pcAfter (run (at100 [(1#5, 0xFFFFFFFF#32), (2#5, 1#32)]) 0x88220003) = some 0x10C#32 := by decide

/-- T142, `BGT R1, R2, 3` -/
theorem test_bgt_is_signed :
    pcAfter (run (at100 [(1#5, 0xFFFFFFFF#32), (2#5, 1#32)]) 0x68220003) = some 0x104#32 := by decide

/-- T143, `BGTU R1, R2, 3` -/
theorem test_bgtu_is_unsigned :
    pcAfter (run (at100 [(1#5, 0xFFFFFFFF#32), (2#5, 1#32)]) 0x8C220003) = some 0x10C#32 := by decide

/-- T153, `BGTU R1, R2, 3` -/
theorem test_bgtu_equal :
    pcAfter (run (at100 [(1#5, 0x80000000#32), (2#5, 0x80000000#32)]) 0x8C220003) = some 0x104#32 := by decide

/-- T144, `BLE R1, R2, 3` -/
theorem test_ble_is_signed :
    pcAfter (run (at100 [(1#5, 0xFFFFFFFF#32), (2#5, 1#32)]) 0x6C220003) = some 0x10C#32 := by decide

/-- T154, `BLE R1, R2, 3` -/
theorem test_ble_equal :
    pcAfter (run (at100 [(1#5, 0x80000000#32), (2#5, 0x80000000#32)]) 0x6C220003) = some 0x10C#32 := by decide

/-- T145, `BLEU R1, R2, 3` -/
theorem test_bleu_is_unsigned :
    pcAfter (run (at100 [(1#5, 0xFFFFFFFF#32), (2#5, 1#32)]) 0x90220003) = some 0x104#32 := by decide

/-- T155, `BLEU R1, R2, 3` -/
theorem test_bleu_equal :
    pcAfter (run (at100 [(1#5, 0x80000000#32), (2#5, 0x80000000#32)]) 0x90220003) = some 0x10C#32 := by decide

/-- T146, `BLT R1, R2, 3` -/
theorem test_blt_is_signed :
    pcAfter (run (at100 [(1#5, 0xFFFFFFFF#32), (2#5, 1#32)]) 0x70220003) = some 0x10C#32 := by decide

/-- T156, `BLT R1, R2, 3` -/
theorem test_blt_equal :
    pcAfter (run (at100 [(1#5, 0x80000000#32), (2#5, 0x80000000#32)]) 0x70220003) = some 0x104#32 := by decide

/-- T147, `BLTU R1, R2, 3` -/
theorem test_bltu_is_unsigned :
    pcAfter (run (at100 [(1#5, 0xFFFFFFFF#32), (2#5, 1#32)]) 0x94220003) = some 0x104#32 := by decide

/-- R175, the row a = 1, b = 0xFFFFFFFF -/
theorem test_bgt_taken :
    pcAfter (run (at100 [(1#5, 1#32), (2#5, 0xFFFFFFFF#32)]) 0x68220003) = some 0x10C#32 := by decide

/-- R175, the row a = 1, b = 0xFFFFFFFF -/
theorem test_bgeu_not_taken :
    pcAfter (run (at100 [(1#5, 1#32), (2#5, 0xFFFFFFFF#32)]) 0x88220003) = some 0x104#32 := by decide

/-- R175, the row a = 1, b = 0xFFFFFFFF -/
theorem test_bltu_taken :
    pcAfter (run (at100 [(1#5, 1#32), (2#5, 0xFFFFFFFF#32)]) 0x94220003) = some 0x10C#32 := by decide

/-! ### System -/

/-- T167 -/
theorem test_eret_resumes :
    (next? (run { at100 [] with epc := some 0x120#32 } 0xF8000000)).map (fun t => (t.pc, t.epc)) =
      some (0x120#32, some 0x120#32) := by decide

/-- T168, T169 -/
theorem test_eret_without_an_address : fault? (run (at100 []) 0xF8000000) = some .eretNoAddress ∧
    fault? (run { at100 [] with epc := some 0x122#32 } 0xF8000000) = some .misalignedTarget := by decide

/-- T170 -/
theorem test_halt_raises_the_line :
    (next? (run (at100 [(2#5, 0x37#32)]) 0xFC000000)).map (fun t => (t.halted, readReg t 2#5)) =
      some (true, 0x37#32) := by decide

/-- U18 -/
theorem test_halted_state_is_stuck :
    fault? (step { (at100 []).withFetchWord 32 0 with halted := true }) = some .stuckHalted := by decide

/-! ### Fetch, and the order of the tests (R237) -/

/-- T188, T189, T190 -/
theorem test_fetch_faults : fault? (step (start .little 0x200#32 [] [])) = some .accessNotAdmitted ∧
    fault? (step (start .little 0x102#32 [] [])) = some .misalignedFetch ∧
    fault? (step { at100 [] with written := [0x103] }) = some .fetchOfModified := by decide

/-- R47: `LW R2, 2(R1)` and `LW R2, 0(R1)` with R1 outside the admitted bytes -/
theorem test_misalignment_comes_before_admission :
    fault? (run (at100 [(1#5, 0x300#32)]) 0x3C410002) = some .misalignedData ∧
    fault? (run (at100 [(1#5, 0x300#32)]) 0x3C410000) = some .accessNotAdmitted := by decide

/-- T137 -/
theorem test_pc_wraps : pcAfter (run (start .little 0xFFFFFFFC#32 [] []) 0) = some 0#32 := by decide

/-! ### Pseudo-instructions, labels, directives -/

/-- S10, S11, S6, S13 -/
theorem test_pseudo_words : (expandPseudo (.beqz 4#5 7#16)).map encode = [0x5C800007#32] ∧
    (expandPseudo (.bnez 4#5 7#16)).map encode = [0x60800007#32] ∧
    (expandPseudo (.not 4#5 5#5)).map encode = [0x2C852800#32] ∧
    (expandPseudo (.li 4#5 0xDEADBEEF#32)).map encode = [0x1880DEAD#32, 0xA884BEEF#32] := by decide

/-- R212; the fields of program P3 -/
theorem test_labels_out_of_reach :
    labelOff16 0x100#32 0x102#32 = none ∧ labelOff16 0x100#32 0x20100#32 = none ∧
    labelOff16 0x10#32 0x24#32 = some 5#16 ∧ labelConst26 0x10000000#32 = none ∧ labelConst26 0x10#32 = some 4#26 := by decide

/-- R44, R220, R221, U21 -/
theorem test_word_directive_lays_down_by_byte_order :
    directiveBytes .little (.word [0x12345678]) = some [0x78#8, 0x56#8, 0x34#8, 0x12#8] ∧
    directiveBytes .big (.word [0x12345678]) = some [0x12#8, 0x34#8, 0x56#8, 0x78#8] ∧
    directiveBytes .big (.word [4294967296]) = none ∧ directiveBytes .big (.byte [1, 256]) = none ∧
    directiveBytes .big (.byte [1, 255]) = some [1#8, 255#8] := by decide

/-- R222, "Hi\n" -/
theorem test_string_is_zero_terminated : directiveBytes .little (.string ['H', 'i', Char.ofNat 92, 'n']) =
      some [Config.charCode 'H', Config.charCode 'i', Config.charCode (Char.ofNat 10), 0#8] := by rfl

/-- R219 -/
theorem test_alloc_reserves : layDirective .little [] 0x200 (.alloc 8) = some ([], 0x208) := by decide

/-- R44 and U22: bytes 2 and 3 of the word lie at 0 and 1 -/
theorem test_word_across_the_top_wraps :
    (layDirective .little [] 0xFFFFFFFE (.word [0x44332211])).map (fun r => (r.1.readBytes 0xFFFFFFFE 4, r.1.read 0, r.2)) =
      some ([0x11#8, 0x22#8, 0x33#8, 0x44#8], 0x33#8, 2) := by decide

/-- Two segments with places of their own, a constant defined and used, a global label (R216 to R218). -/
def sampleFile : List Line :=
  [.directive (.segment "data"), .directive (.define "size" 4), .label "start", .directive (.byte [1, 2]),
   .directive (.segment "code"), .instr .LW [.reg 2, .off16 (.name "size"), .reg 1],
   .pseudo .LI [.reg 4, .const32 (.number 0xDEADBEEF)],
   .directive (.segment "data"), .directive (.byte [3]), .directive (.global "start")]

/-- the words are those of T104 and S13, the bytes of `.byte` in the order of the lines -/
theorem test_segments_and_constants : (assembleFile .big [] [("code", 0x100), ("data", 0x200)] "code" sampleFile).map
      (fun a => (a.places.lookup "code", a.places.lookup "data", a.mem.readBytes 0x100 12, a.mem.readBytes 0x200 3)) =
      some (some 0x10C, some 0x203,
        [0x3C#8, 0x41#8, 0#8, 4#8, 0x18#8, 0x80#8, 0xDE#8, 0xAD#8, 0xA8#8, 0x84#8, 0xBE#8, 0xEF#8],
        [1#8, 2#8, 3#8]) := by decide

/-- R217 -/
theorem test_labels_and_globals : (assembleFile .big [] [("code", 0x100), ("data", 0x200)] "code" sampleFile).map
      (fun a => (a.labels, a.exported)) = some ([("start", 0x200)], ["start"]) := by decide

/-- R218: used before it is defined, and a name that is not alphanumeric; R217: no such label -/
theorem test_refused_lines : layLines .big [] ⟨[], [("code", 0)], "code", [], [], []⟩
      [.instr .ADDI [.reg 1, .reg 0, .const16 (.name "size")], .directive (.define "size" 4)] = none ∧
    layLines .big [] ⟨[], [("code", 0)], "code", [], [], []⟩ [.directive (.define "a-b" 4)] = none ∧
    layLines .big [] ⟨[], [("code", 0)], "code", [], [], []⟩ [.directive (.global "start")] = none := by decide

/-! ### Witnesses: concrete values that meet the hypotheses of the obligation each is named after -/

theorem witness_DecodeOfEncodeIsTheInstruction :
    Instr.wellFormed (.sw 31#5 0#5 0x8000#16) = true ∧ Instr.wellFormed (.call 0x3FFFFFF#26) = true ∧
    Instr.wellFormed .halt = true := by decide

theorem witness_EncodeOfDecodeIsTheWord : decode 0x50228000#32 = .ok (.sw 1#5 2#5 0x8000#16) := by decide

theorem witness_StrictMaskDecidesTheRow :
    0x58A00001#32 &&& 0xFC000000#32 = (Instr.jr 0#5).matchWord ∧
    0x58A00001#32 &&& (Instr.jr 0#5).format.strictMask ≠ (Instr.jr 0#5).matchWord ∧
    0x58A00000#32 &&& (Instr.jr 0#5).format.strictMask = (Instr.jr 0#5).matchWord := by decide

theorem witness_AssemblyLinesNameTheirInstruction :
    ∃ o ∈ [Operand.reg 1, .reg 2, .const16 65536], o.fits = false := by decide

/-- `ADD R3, R1, R2` at 0x100, the last byte let through for fetch being 0x103. -/
def fetchWitness : State := start .big 0x100#32 [(0x101, 0x61#8), (0x102, 0x10#8)] []

theorem witness_StepRunsTheDecodedInstruction :
    fetchWitness.halted = false ∧ fetchWitness.pc.toNat % 4 = 0 ∧
    (∀ k, k < 4 → mapAllows fetchWitness.cfg .fetch (fetchWitness.pc.toNat + k) = true) ∧
    (∀ k, k < 4 → fetchWitness.pc.toNat + k ∉ fetchWitness.written) ∧
    fetchWitness.mem.read fetchWitness.pc.toNat = 0#8 ∧ fetchWitness.mem.read (fetchWitness.pc.toNat + 1) = 0x61#8 ∧
    fetchWitness.mem.read (fetchWitness.pc.toNat + 2) = 0x10#8 ∧
    fetchWitness.mem.read (fetchWitness.pc.toNat + 3) = 0#8 ∧
    decodeBytes fetchWitness.cfg.byteOrder 0#8 0x61#8 0x10#8 0#8 = .ok (.add 3#5 1#5 2#5) := by decide

theorem witness_FetchAndDecodeFaultsInOrder_misaligned :
    (start .big 0x103#32 [] []).halted = false ∧ (start .big 0x103#32 [] []).pc.toNat % 4 ≠ 0 := by decide

/-- Only the last byte of the word, at the top of the address space, is not let through. -/
theorem witness_FetchAndDecodeFaultsInOrder_not_admitted :
    let s : State := { at100 [] with pc := 0xFFFFFFFC#32,
                                     cfg := ⟨.little, [⟨0xFFFFFFFC, 3, true, true, true⟩], 0#32⟩ }
    s.halted = false ∧ s.pc.toNat % 4 = 0 ∧ mapAllows s.cfg .fetch (s.pc.toNat + 2) = true ∧
    (∃ k, k < 4 ∧ mapAllows s.cfg .fetch (s.pc.toNat + k) = false) := by decide

/-- Only the last byte of the word was stored to. -/
theorem witness_FetchAndDecodeFaultsInOrder_modified :
    let s : State := { fetchWitness with written := [0x103] }
    s.halted = false ∧ s.pc.toNat % 4 = 0 ∧
    (∀ k, k < 4 → mapAllows s.cfg .fetch (s.pc.toNat + k) = true) ∧
    (∃ k, k < 4 ∧ s.pc.toNat + k ∈ s.written) := by decide

theorem witness_FetchAndDecodeFaultsInOrder_decode :
    let s : State := start .big 0x100#32 [(0x100, 0x78#8)] []
    let r : State := start .big 0x100#32 [(0x103, 1#8)] []
    s.halted = false ∧ s.pc.toNat % 4 = 0 ∧
    (∀ k, k < 4 → mapAllows s.cfg .fetch (s.pc.toNat + k) = true) ∧ (∀ k, k < 4 → s.pc.toNat + k ∉ s.written) ∧
    decode (wordAt s s.pc.toNat) = .error .illegalOpcode ∧
    r.halted = false ∧ r.pc.toNat % 4 = 0 ∧
    (∀ k, k < 4 → mapAllows r.cfg .fetch (r.pc.toNat + k) = true) ∧ (∀ k, k < 4 → r.pc.toNat + k ∉ r.written) ∧
    decode (wordAt r r.pc.toNat) = .error .reservedBitsNonzero := by decide

/-- A state about to execute HALT. -/
def haltWitness : State := (at100 []).withFetchWord 32 0xFC000000

theorem halt_step_next : step haltWitness = .next (raiseHalt haltWitness) := by rfl

theorem witness_OnlyHaltRaisesTheHaltLine :
    (∃ t, step haltWitness = .next t) ∧ (∃ t, step fetchWitness = .next t) ∧ (raiseHalt haltWitness).halted = true :=
  ⟨⟨_, halt_step_next⟩, ⟨_, rfl⟩, rfl⟩

theorem witness_EveryStepKeepsTheParameters : ∃ t, step fetchWitness = .next t := ⟨_, rfl⟩

theorem witness_FaultsOnlyWhereTheRulesRaiseThem :
    exec (.divu 6#5 4#5 5#5) (at100 []) = .fault .divideByZero ∧
    exec (.div 6#5 4#5 5#5) (at100 [(4#5, 0x80000000#32), (5#5, 0xFFFFFFFF#32)]) = .fault .divideOverflow ∧
    exec (.lh 2#5 1#5 1#16) (at100 []) = .fault .misalignedData ∧
    exec (.sb 1#5 2#5 0#16) (at100 []) = .fault .accessNotAdmitted ∧
    exec (.jr 5#5) (at100 [(5#5, 2#32)]) = .fault .misalignedTarget ∧
    exec .eret (at100 []) = .fault .eretNoAddress := ⟨rfl, rfl, rfl, rfl, rfl, rfl⟩

theorem reset_is_launch : State.reset.IsLaunch := ⟨Config.chosen, _, _, _, rfl, rfl⟩

/-- A launch state other than the reset state. -/
def launchWitness : State := State.launch ⟨.big, vectorMap, 0x100#32⟩ (Vector.replicate 32 0#32) loadData (some 0x102#32)

theorem launchWitness_is_launch : launchWitness.IsLaunch := ⟨_, _, _, _, by decide, rfl⟩

theorem witness_LaunchMeetsTheInvariant :
    launchWitness.IsLaunch ∧ launchWitness.mem.wf = true ∧ launchWitness.regs[0] = 0#32 :=
  ⟨launchWitness_is_launch, rfl, rfl⟩

theorem fetchWitness_inv : fetchWitness.Inv := ⟨by decide, by decide, by decide, by decide, by decide⟩

theorem witness_EveryStepKeepsTheInvariant : fetchWitness.Inv ∧ ∃ t, step fetchWitness = .next t :=
  ⟨fetchWitness_inv, _, rfl⟩

/-- No byte of the vectors' map is let through for both fetch and write. -/
theorem vectorMap_textNotWritable (o : ByteOrder) (r : Word) : TextNotWritable ⟨o, vectorMap, r⟩ := by
  intro a
  simp [mapAllows, vectorMap, regionCovers, regionAllows]
  omega

theorem witness_TextNotWritableExcludesFetchOfModified :
    fetchWitness.IsLaunch ∧ TextNotWritable fetchWitness.cfg ∧ ∃ t, t ≠ fetchWitness ∧ Steps fetchWitness t :=
  ⟨⟨⟨.big, vectorMap, 0x100#32⟩, _, _, _, by decide, rfl⟩, vectorMap_textNotWritable _ _, advance (writeReg fetchWitness 3#5 0#32), by decide,
    .tail (.refl _) rfl⟩

theorem witness_MemoriesThatReadAlikeAreEqual :
    Memory.wf ([(0x200, 1#8)] : Memory) = true ∧
    Memory.wf (Memory.write [(0x200, 1#8), (0x201, 2#8)] 0x201 0#8) = true ∧
    (∀ a, Memory.read [(0x200, 1#8)] a = Memory.read (Memory.write [(0x200, 1#8), (0x201, 2#8)] 0x201 0#8) a) :=
  ⟨by decide, by decide, fun _ => rfl⟩

theorem witness_PlacedWordIsRunNext :
    (at100 []).mem.wf = true ∧ (at100 []).pc.toNat % 4 = 0 ∧ decode (BitVec.ofNat 32 0x74000004) = .ok (.call 4#26) ∧
    (start .big 0xFFFFFFFC#32 [] []).pc.toNat % 4 = 0 := by decide

/-- A state whose R1 holds 0x200 and R2 0x12345678. -/
def storeWitness : State := at100 [(1#5, 0x200#32), (2#5, 0x12345678#32)]

theorem witness_OnlyStoresChangeMemory :
    (∃ t, exec (.add 3#5 1#5 2#5) storeWitness = .next t) ∧ storeOf (.add 3#5 1#5 2#5) = none ∧
    (∃ t, exec (.sw 1#5 2#5 4#16) storeWitness = .next t) ∧ storeOf (.sw 1#5 2#5 4#16) = some (4, 1#5, 2#5, 4#16) ∧
    storeWitness.mem.wf = true := ⟨⟨_, rfl⟩, rfl, ⟨_, rfl⟩, rfl, rfl⟩

/-- Two states that differ in R7, which neither instruction reads. -/
theorem witness_RegistersReadAndWritten :
    AgreeOutsideRegs storeWitness (writeReg storeWitness 7#5 9#32) ∧
    (∀ r ∈ regsRead (.add 3#5 1#5 2#5), readReg (writeReg storeWitness 7#5 9#32) r = readReg storeWitness r) ∧
    (∃ t, exec (.add 3#5 1#5 2#5) storeWitness = .next t) ∧
    (∀ r ∈ regsRead (.divu 3#5 1#5 0#5), readReg (writeReg storeWitness 7#5 9#32) r = readReg storeWitness r) ∧
    exec (.divu 3#5 1#5 0#5) storeWitness = .fault .divideByZero :=
  ⟨⟨rfl, rfl, rfl, rfl, rfl, rfl, rfl⟩, by decide, ⟨_, rfl⟩, by decide, rfl⟩

theorem witness_WritesToR0AreDropped :
    accessFault storeWitness .read (effAddr (readReg storeWitness 1#5) 4#16) .word = none := by decide

/-- A signed sum at each end of its range. -/
theorem witness_AddAndSubtract :
    let s : State := at100 [(1#5, 0x7FFFFFFE#32), (2#5, 1#32), (3#5, 0x80000000#32)]
    (readReg s 1#5).toInt + (readReg s 2#5).toInt ≤ 2 ^ 31 - 1 ∧
    -2 ^ 31 ≤ (readReg s 1#5).toInt + (readReg s 2#5).toInt ∧
    -2 ^ 31 ≤ (readReg s 3#5).toInt + (readReg s 0#5).toInt ∧
    (readReg s 3#5).toInt + (readReg s 0#5).toInt ≤ 2 ^ 31 - 1 := by decide

theorem witness_Multiply :
    (∃ t, exec (.mulu 31#5 1#5 2#5) storeWitness = .next t) ∧ ∃ u, exec (.mul 31#5 1#5 2#5) storeWitness = .next u :=
  ⟨⟨_, rfl⟩, _, rfl⟩

theorem witness_DivideUnsigned : readReg storeWitness 1#5 ≠ 0#32 ∧ readReg storeWitness 3#5 = 0#32 := by decide

/-- R4 the most negative number, R5 = -1, R6 = 1, R7 = 0. -/
def divideWitness : State := at100 [(4#5, 0x80000000#32), (5#5, 0xFFFFFFFF#32), (6#5, 1#32), (8#5, 0x7FFFFFFF#32)]

theorem witness_DivideSigned :
    (readReg divideWitness 7#5).toInt = 0 ∧
    (readReg divideWitness 4#5).toInt = -2 ^ 31 ∧ (readReg divideWitness 5#5).toInt = -1 ∧
    (readReg divideWitness 6#5).toInt ≠ 0 ∧
    ¬((readReg divideWitness 4#5).toInt = -2 ^ 31 ∧ (readReg divideWitness 6#5).toInt = -1) ∧
    (readReg divideWitness 4#5).toInt < 0 ∧ 0 ≤ (readReg divideWitness 8#5).toInt ∧
    0 < (readReg divideWitness 6#5).toInt := by decide

theorem witness_SignedDivisionCandidates :
    SdivTruncates truncating ∧ SdivFloors flooring ∧ (2#32).toInt ≠ 0 ∧
    ¬((0xFFFFFFF9#32).toInt = -2 ^ 31 ∧ (2#32).toInt = -1) :=
  ⟨fun _ _ _ _ => rfl, fun _ _ _ _ => rfl, by decide, by decide⟩

/-- The last byte, half-word and word let through, and an address below the base that wraps. -/
theorem witness_LoadsComplete :
    let s : State := start .big 0x100#32 loadData [(1#5, 0x208#32)]
    (effAddr (readReg s 1#5) 0xFFFF#16).toNat = 0x207 ∧ mapAllows s.cfg .read 0x207 = true ∧
    (effAddr (readReg s 1#5) 0xFFFE#16).toNat = 0x206 ∧ 0x206 % 2 = 0 ∧
    (∀ k, k < 2 → mapAllows s.cfg .read (0x206 + k) = true) ∧
    (effAddr (readReg s 1#5) 0xFFFC#16).toNat = 0x204 ∧ 0x204 % 4 = 0 ∧
    (∀ k, k < 4 → mapAllows s.cfg .read (0x204 + k) = true) ∧
    (effAddr (readReg s 0#5) 0xFFFC#16).toNat = 0xFFFFFFFC := by decide

theorem witness_StoresComplete :
    let s : State := start .big 0x100#32 loadData [(1#5, 0x208#32)]
    s.mem.wf = true ∧
    (effAddr (readReg s 1#5) 0xFFFF#16).toNat = 0x207 ∧ mapAllows s.cfg .write 0x207 = true ∧
    (effAddr (readReg s 1#5) 0xFFFE#16).toNat = 0x206 ∧ (∀ k, k < 2 → mapAllows s.cfg .write (0x206 + k) = true) ∧
    (effAddr (readReg s 1#5) 0xFFFC#16).toNat = 0x204 ∧ (∀ k, k < 4 → mapAllows s.cfg .write (0x204 + k) = true) := by
  decide

theorem witness_AccessFaultsInOrder :
    mapAllows storeWitness.cfg .read (effAddr (readReg storeWitness 1#5) 8#16).toNat = false ∧
    mapAllows storeWitness.cfg .write (effAddr (readReg storeWitness 1#5) 8#16).toNat = false ∧
    (effAddr (readReg storeWitness 1#5) 8#16).toNat % 4 = 0 ∧
    (effAddr (readReg storeWitness 1#5) 1#16).toNat % 2 ≠ 0 ∧
    (effAddr (readReg storeWitness 1#5) 2#16).toNat % 4 ≠ 0 ∧
    (∃ k, k < 2 ∧ mapAllows storeWitness.cfg .read ((effAddr (readReg storeWitness 1#5) 8#16).toNat + k) = false) ∧
    (∃ k, k < 4 ∧ mapAllows storeWitness.cfg .write ((effAddr (readReg storeWitness 1#5) 8#16).toNat + k) = false) := by
  decide

/-- Each of the three stores at the last place it fits, and the load back from it. -/
theorem witness_StoreThenLoadReturnsTheValue :
    storeWitness.mem.wf = true ∧
    (∃ t, exec (.sw 1#5 2#5 4#16) storeWitness = .next t ∧
      effAddr (readReg t 1#5) 4#16 = effAddr (readReg storeWitness 1#5) 4#16 ∧
      accessFault t .read (effAddr (readReg t 1#5) 4#16) .word = none) ∧
    (∃ t, exec (.sh 1#5 2#5 6#16) storeWitness = .next t ∧
      effAddr (readReg t 1#5) 6#16 = effAddr (readReg storeWitness 1#5) 6#16 ∧
      accessFault t .read (effAddr (readReg t 1#5) 6#16) .half = none) ∧
    (∃ t, exec (.sb 1#5 2#5 7#16) storeWitness = .next t ∧
      effAddr (readReg t 1#5) 7#16 = effAddr (readReg storeWitness 1#5) 7#16 ∧
      accessFault t .read (effAddr (readReg t 1#5) 7#16) .byte = none) :=
  ⟨rfl, ⟨_, rfl, by decide, by decide⟩, ⟨_, rfl, by decide, by decide⟩, ⟨_, rfl, by decide, by decide⟩⟩

theorem witness_NarrowLoadSeesTheStoredWord :
    storeWitness.mem.wf = true ∧ 0x204 = (effAddr (readReg storeWitness 1#5) 4#16).toNat ∧
    (0x78#8 = match storeWitness.cfg.byteOrder with
      | .little => (readReg storeWitness 2#5).extractLsb' 0 8
      | .big => (readReg storeWitness 2#5).extractLsb' 24 8) ∧
    (0x1234#16 = match storeWitness.cfg.byteOrder with
      | .little => (readReg storeWitness 2#5).extractLsb' 16 16
      | .big => (readReg storeWitness 2#5).extractLsb' 0 16) ∧
    ∃ t, exec (.sw 1#5 2#5 4#16) storeWitness = .next t ∧
      (effAddr (readReg t 1#5) 4#16).toNat = 0x204 ∧ mapAllows t.cfg .read 0x204 = true ∧
      (effAddr (readReg t 1#5) 6#16).toNat = 0x204 + 2 ∧ mapAllows t.cfg .read (0x204 + 2) = true ∧
      mapAllows t.cfg .read (0x204 + 3) = true :=
  ⟨rfl, by decide, by decide, by decide, _, rfl, by decide, by decide, by decide, by decide, by decide⟩

theorem witness_JumpRegister :
    (readReg storeWitness 1#5).toNat % 4 = 0 ∧ (readReg (at100 [(5#5, 0x42#32)]) 5#5).toNat % 4 ≠ 0 := by decide

theorem witness_EretResumesAtTheSavedAddress :
    ({ at100 [] with epc := some 0xFFFFFFFC#32 } : State).epc = some 0xFFFFFFFC#32 ∧ (0xFFFFFFFC#32).toNat % 4 = 0 ∧
    (0x122#32).toNat % 4 ≠ 0 ∧ (at100 []).epc = none := by decide

/-- The handler's first instruction, `ADD R3, R1, R2` at 0x100, runs after an entry from 0x204. -/
theorem witness_ExceptionEntryThenReturn :
    (0x204#32).toNat % 4 = 0 ∧
    ∃ t, t ≠ takeException fetchWitness 0x204#32 0x100#32 ∧ Steps (takeException fetchWitness 0x204#32 0x100#32) t :=
  ⟨by decide, advance (writeReg (takeException fetchWitness 0x204#32 0x100#32) 3#5 0#32), by decide,
    .tail (.refl _) rfl⟩

theorem witness_PseudoInstructionEffects : (readReg (at100 [(31#5, 0xC#32)]) 31#5).toNat % 4 = 0 := by decide

/-- The labels at both ends of each reach. -/
theorem witness_LabelFieldsReachTheLabel :
    labelOff16 0x40000#32 0x20000#32 = some 0x8000#16 ∧ labelOff16 0x100#32 0x200FC#32 = some 0x7FFF#16 ∧
    labelOff26 0x8000000#32 0#32 = some 0x2000000#26 ∧ labelOff26 0x100#32 0x80000FC#32 = some 0x1FFFFFF#26 ∧
    labelConst26 0#32 = some 0#26 ∧ labelConst26 0x0FFFFFFC#32 = some 0x3FFFFFF#26 := by decide

/-- Words, bytes and a string that end at the top of the address space, and ones that cross it. -/
theorem witness_DirectivesLayDownTheirData :
    fetchWitness.mem.wf = true ∧
    (∃ m n, layDirective fetchWitness.cfg.byteOrder fetchWitness.mem 0xFFFFFFF8 (.word [1, 4294967295]) = some (m, n)) ∧
    (∃ m n, layDirective fetchWitness.cfg.byteOrder fetchWitness.mem 0xFFFFFFFE (.word [1, 4294967295]) = some (m, n)) ∧
    4 * [1, 4294967295].length ≤ 2 ^ 32 ∧ [1, 4294967295][1]? = some 4294967295 ∧
    (∃ m n, layDirective fetchWitness.cfg.byteOrder fetchWitness.mem 0xFFFFFFFF (.byte [0, 255]) = some (m, n)) ∧
    [0, 255].length ≤ 2 ^ 32 ∧ [0, 255][1]? = some 255 ∧
    (∃ m n, layDirective fetchWitness.cfg.byteOrder fetchWitness.mem 0xFFFFFFFF (.string ['H', 'i']) = some (m, n)) ∧
    unescape ['H', 'i'] = some ['H', 'i'] ∧ ['H', 'i'].length + 1 ≤ 2 ^ 32 ∧ ['H', 'i'][1]? = some 'i' :=
  ⟨rfl, ⟨_, _, rfl⟩, ⟨_, _, rfl⟩, by decide, by decide, ⟨_, _, rfl⟩, by decide, by decide, ⟨_, _, rfl⟩, by decide,
    by decide, by decide⟩

/-- A state in which a byte was stored where MEM_MAP lets a write through. -/
theorem witness_EveryStepKeepsWrittenAllowed :
    ({ fetchWitness with written := [0x207] } : State).WrittenAllowed ∧
    ∃ t, step { fetchWitness with written := [0x207] } = .next t :=
  ⟨show ∀ a ∈ [0x207], mapAllows fetchWitness.cfg .write a = true by decide, _, rfl⟩

theorem witness_LaunchMeetsWrittenAllowed : launchWitness.IsLaunch := launchWitness_is_launch

/-- An assembly of two segments, one of them ending at the top of the address space. -/
def assemblyWitness : Assembly := ⟨[], [("code", 0x100), ("data", 0xFFFFFFFF)], "code", [], [], []⟩

theorem witness_SegmentsKeepTheirOwnAddresses :
    assemblyWitness.places.lookup "heap" = none ∧ assemblyWitness.places.lookup "data" = some 0xFFFFFFFF ∧
    "code" ≠ "data" ∧
    resolveOperands assemblyWitness.constants [.reg 31] = some [.reg 31] ∧ assembleLine .JR [.reg 31] = some (.jr 31#5) ∧
    resolveOperands assemblyWitness.constants [] = some [] ∧ pseudoLine .RET [] = some .ret ∧
    directiveBytes .big (.byte [0, 255]) = some [0#8, 255#8] ∧ directiveBytes .big (.alloc 2) = some [] ∧
    (∃ bs, directiveBytes .big (.word [1]) = some bs) ∧ (∃ bs, directiveBytes .big (.string ['H']) = some bs) ∧
    (∀ l, Line.directive (.segment l) ∉ [Line.pseudo .NOP [], .directive (.byte [1])]) ∧
    ∃ c, layLines .big [] { assemblyWitness with segment := "data" } [.pseudo .NOP [], .directive (.byte [1])] = some c :=
  ⟨by decide, by decide, by decide, by decide, by decide, by decide, by decide, by decide, by decide, ⟨_, rfl⟩, ⟨_, rfl⟩,
    by simp, ⟨_, rfl⟩⟩

theorem witness_DefinedNamesStandForTheirValue :
    "size4".toList ≠ [] ∧ (∀ c ∈ "size4".toList, c.isAlphanum = true) ∧ (∃ c ∈ "a-b".toList, c.isAlphanum = false) ∧
    assemblyWitness.constants.lookup "size4" = none :=
  ⟨by decide, by rw [← List.all_eq_true]; rfl, ⟨'-', by decide, by decide⟩, rfl⟩

/-- A program of one HALT ends well (R193). -/
theorem test_run_ends_well : haltWitness.EndsWell := ⟨_, .tail (.refl _) halt_step_next, rfl⟩

/-- `DIVU R6, R4, R0` alone ends in a fault (program P6). -/
theorem test_run_ends_in_fault : ((at100 [(4#5, 7#32)]).withFetchWord 32 0x10C40000).EndsInFault :=
  ⟨_, .divideByZero, .refl _, rfl, rfl⟩

/-- `TextLoaded` of the two words of a LI laid down at 0x100. -/
theorem test_text_loaded :
    State.TextLoaded (start .big 0x100#32 (layProgram .big [] 0x100 (expandPseudo (.li 4#5 0xDEADBEEF#32))) [])
      0x100 [0x1880DEAD#32, 0xA884BEEF#32] := by
  intro k w h
  match k, h with
  | 0, h => cases h; decide
  | 1, h => cases h; decide

end Sys2Proof.Tests
end

section
/-! PROOFS of the family 00_scope: an instruction's own line of assembly (O6), and what no step changes (O11). -/

namespace Sys2Proof.Machine

/-! ### A field's number fits its field (R75, R76) -/

@[simp] theorem fits_reg_toNat (r : RegNum) : (Operand.reg r.toNat).fits = true := decide_eq_true r.isLt

@[simp] theorem fits_const16_toNat (c : Imm16) : (Operand.const16 c.toNat).fits = true := decide_eq_true c.isLt

@[simp] theorem fits_const26_toNat (c : Imm26) : (Operand.const26 c.toNat).fits = true := decide_eq_true c.isLt

@[simp] theorem fits_off16_toInt (o : Imm16) : (Operand.off16 o.toInt).fits = true := by
  have hlo := BitVec.le_toInt o
  have hhi := BitVec.toInt_lt (x := o)
  simp only [Operand.fits, Bool.and_eq_true, decide_eq_true_eq]
  omega

@[simp] theorem fits_off26_toInt (o : Imm26) : (Operand.off26 o.toInt).fits = true := by
  have hlo := BitVec.le_toInt o
  have hhi := BitVec.toInt_lt (x := o)
  simp only [Operand.fits, Bool.and_eq_true, decide_eq_true_eq]
  omega

/-- An instruction's own operands fit, since its fields have their widths (U21). -/
theorem wellFormed_eq_true (i : Instr) : i.wellFormed = true := by
  cases i <;> simp [Instr.wellFormed, Instr.operands]

/-! ### Each form reads its fields back (R200, R140) -/

section Forms
variable (d s t : RegNum) (imm : Imm16) (imm26 : Imm26)

theorem asmR3_fields (make : RegNum → RegNum → RegNum → Instr) :
    asmR3 make [.reg d.toNat, .reg s.toNat, .reg t.toNat] = some (make d s t) := by simp [asmR3]

theorem asmConst_fields (make : RegNum → RegNum → Imm16 → Instr) :
    asmConst make [.reg d.toNat, .reg s.toNat, .const16 imm.toNat] = some (make d s imm) := by simp [asmConst]

theorem asmLoad_fields (make : RegNum → RegNum → Imm16 → Instr) :
    asmLoad make [.reg d.toNat, .off16 imm.toInt, .reg s.toNat] = some (make d s imm) := by simp [asmLoad]

theorem asmStore_fields (make : RegNum → RegNum → Imm16 → Instr) :
    asmStore make [.reg s.toNat, .off16 imm.toInt, .reg d.toNat] = some (make d s imm) := by simp [asmStore]

theorem asmBranch_fields (make : RegNum → RegNum → Imm16 → Instr) :
    asmBranch make [.reg d.toNat, .reg s.toNat, .off16 imm.toInt] = some (make d s imm) := by simp [asmBranch]

theorem asmLui_fields : asmLui [.reg d.toNat, .const16 imm.toNat] = some (.lui d imm) := by simp [asmLui]

theorem asmJr_fields : asmJr [.reg d.toNat] = some (.jr d) := by simp [asmJr]

theorem asmCall_fields : asmCall [.const26 imm26.toNat] = some (.call imm26) := by simp [asmCall]

theorem asmB_fields : asmB [.off26 imm26.toInt] = some (.b imm26) := by simp [asmB]

end Forms

/-- The form of an instruction's mnemonic reads the instruction back from its own operands (R2, R200). -/
theorem asmForm_mnemonicOf_operands (i : Instr) : asmForm (mnemonicOf i) i.operands = some i := by
  cases i
  case add | sub | mulu | mul | divu | div | sll | srl | and | or | nor | xor => exact asmR3_fields ..
  case addi | subi | slli | srli | andi | ori => exact asmConst_fields ..
  case lb | lh | lw | lbu | lhu => exact asmLoad_fields ..
  case sb | sh | sw => exact asmStore_fields ..
  case beq | bne | bge | bgeu | bgt | bgtu | ble | bleu | blt | bltu => exact asmBranch_fields ..
  case lui => exact asmLui_fields ..
  case jr => exact asmJr_fields ..
  case call => exact asmCall_fields ..
  case b => exact asmB_fields ..
  case eret | halt => rfl

/-! ### Lines whose operands fit, and lines with one that does not (U21) -/

theorem assembleLine_of_all_fit {m : Mnemonic} {ops : List Operand} (h : ops.all Operand.fits = true) :
    assembleLine m ops = asmForm m ops := if_pos h

theorem assembleLine_of_not_fits {m : Mnemonic} {ops : List Operand} {o : Operand} (ho : o ∈ ops)
    (hf : o.fits = false) : assembleLine m ops = none := by
  have hall : ¬ops.all Operand.fits = true := by
    rw [List.all_eq_true]
    intro h
    rw [h o ho] at hf
    cases hf
  exact if_neg hall

/-- Settles O6: an instruction's own operands fit and its mnemonic's form reads them back; the fit is tested first. -/
theorem assemblyLinesNameTheirInstruction : Obligations.AssemblyLinesNameTheirInstruction := by
  unfold Obligations.AssemblyLinesNameTheirInstruction
  constructor
  · intro i
    rw [assembleLine_of_all_fit (wellFormed_eq_true i), asmForm_mnemonicOf_operands]
  · rintro m ops ⟨o, ho, hf⟩
    exact assembleLine_of_not_fits ho hf

/-! ### What no instruction changes (R29, R35) -/

theorem exec_next_cfg_epc {i : Instr} {s t : State} (h : exec i s = .next t) : t.cfg = s.cfg ∧ t.epc = s.epc := by
  obtain ⟨rd, v, rfl⟩ | ⟨rd, lo, hi, rfl⟩ | ⟨a, n, v, -, rfl⟩ | ⟨r, v, target, -, rfl⟩ | ⟨-, rfl⟩ :=
    exec_next_cases h
  · simp -- one register
  · simp -- a pair
  · simp -- a store
  · simp -- a transfer, ERET's among them
  · simp -- HALT

/-- Settles O11: a step that goes on is an exec, and none of the five things exec can do touches `cfg` or `epc`. -/
theorem everyStepKeepsTheParameters : Obligations.EveryStepKeepsTheParameters := by
  unfold Obligations.EveryStepKeepsTheParameters
  intro s t h
  obtain ⟨-, i, -, hexec⟩ := step_next h
  exact exec_next_cfg_epc hexec

end Sys2Proof.Machine
end

section
/-! PROOFS of the family 10_state: the invariant (O15), the halt line (O10, O44), the registers an instruction reads and
writes (O20), writes to R0 (O21), ERET (O43), what a step runs (O8) and reset (O13). -/

namespace Sys2Proof.Machine

/-! ### Each operation keeps the invariant (R21, R28, R35, R40, R59) -/

section Invariant
variable {s : State} (h : s.Inv)
include h

theorem inv_writeReg (r : RegNum) (v : Word) : (writeReg s r v).Inv where
  memWf := by simpa using h.memWf
  writtenWf := by simpa using h.writtenWf
  slotZero := by simpa using h.slotZero
  cfgWf := by simpa using h.cfgWf
  pcAligned := by simpa using h.pcAligned

theorem inv_writePair (r : RegNum) (lo hi : Word) : (writePair s r lo hi).Inv := by
  unfold writePair
  split
  · exact inv_writeReg h r lo
  · exact inv_writeReg (inv_writeReg h r lo) (r + 1#5) hi

/-- An access without a fault lies below 2^32, and so do the addresses it adds to the written set (R47). -/
theorem inv_poke {a : Word} {n : Size} (v : Word) (ha : accessFault s .write a n = none) : (poke s a n v).Inv where
  memWf := writeBytes_wf _ h.memWf
  writtenWf := addAddrs_wf h.writtenWf (access_below (accessFault_none_iff.1 ha).1)
  slotZero := h.slotZero
  cfgWf := h.cfgWf
  pcAligned := h.pcAligned

theorem inv_setPc {target : Word} (ht : target.aligned = true) : (setPc s target).Inv where
  memWf := h.memWf
  writtenWf := h.writtenWf
  slotZero := h.slotZero
  cfgWf := h.cfgWf
  pcAligned := fun _ => ht

theorem inv_advance (hpc : s.pc.aligned = true) : (advance s).Inv := inv_setPc h (aligned_add hpc aligned_four)

/-- A halted state may have any `pc` (R193, log 7). -/
theorem inv_raiseHalt : (raiseHalt s).Inv where
  memWf := h.memWf
  writtenWf := h.writtenWf
  slotZero := h.slotZero
  cfgWf := h.cfgWf
  pcAligned := fun hrun => nomatch hrun

end Invariant

theorem exec_next_inv {i : Instr} {s t : State} (h : s.Inv) (hpc : s.pc.aligned = true) (hexec : exec i s = .next t) :
    t.Inv := by
  obtain ⟨rd, v, rfl⟩ | ⟨rd, lo, hi, rfl⟩ | ⟨a, n, v, ha, rfl⟩ | ⟨r, v, target, ht, rfl⟩ | ⟨-, rfl⟩ :=
    exec_next_cases hexec
  · exact inv_advance (inv_writeReg h rd v) (by simpa using hpc)
  · exact inv_advance (inv_writePair h rd lo hi) (by simpa using hpc)
  · exact inv_advance (inv_poke h v ha) hpc
  · exact inv_setPc (inv_writeReg h r v) (ht hpc)
  · exact inv_raiseHalt h

/-- Settles O15: the fetch has tested `pc`, and each of the five things exec can do from an aligned `pc` keeps the
invariant. -/
theorem everyStepKeepsTheInvariant : Obligations.EveryStepKeepsTheInvariant := by
  unfold Obligations.EveryStepKeepsTheInvariant
  intro s t hinv hstep
  obtain ⟨-, i, hfetch, hexec⟩ := step_next hstep
  exact exec_next_inv hinv (fetchInstr_ok hfetch).1 hexec

/-! ### The halt line (R30, R192, R193) -/

theorem exec_halt (s : State) : exec .halt s = .next (raiseHalt s) := rfl

theorem step_ne_next_of_halted {s : State} (h : s.halted = true) (t : State) : step s ≠ .next t := by
  intro hstep
  obtain ⟨hrun, -⟩ := step_next hstep
  rw [h] at hrun
  cases hrun

/-- From a running state, the halt line is up after an instruction exactly when it is HALT. -/
theorem exec_next_halted_iff {i : Instr} {s t : State} (hrun : s.halted = false) (h : exec i s = .next t) :
    t.halted = true ↔ i = .halt := by
  constructor
  · intro hup
    obtain ⟨rd, v, rfl⟩ | ⟨rd, lo, hi, rfl⟩ | ⟨a, n, v, -, rfl⟩ | ⟨r, v, target, -, rfl⟩ | ⟨hhalt, -⟩ :=
      exec_next_cases h
    · simp [hrun] at hup -- one register
    · simp [hrun] at hup -- a pair
    · simp [hrun] at hup -- a store
    · simp [hrun] at hup -- a transfer
    · exact hhalt
  · rintro rfl
    cases h
    rfl

/-- Settles O10: a step that goes on starts with the halt line down and is an exec of the fetched instruction. -/
theorem onlyHaltRaisesTheHaltLine : Obligations.OnlyHaltRaisesTheHaltLine := by
  unfold Obligations.OnlyHaltRaisesTheHaltLine
  constructor
  · intro s t hstep
    obtain ⟨hrun, i, hfetch, hexec⟩ := step_next hstep
    rw [exec_next_halted_iff hrun hexec, hfetch, Except.ok.injEq]
  · intro s t hup
    exact step_ne_next_of_halted hup t

/-- Settles O44: HALT is `raiseHalt`, and no step leaves a halted state. -/
theorem haltRaisesTheLine : Obligations.HaltRaisesTheLine := by
  unfold Obligations.HaltRaisesTheLine
  intro s
  have hword : (encode .halt).toNat = 0xFC000000 := by simp [encode, toNat_packN]
  exact ⟨hword, raiseHalt s, exec_halt s, rfl, fun _ => rfl, fun _ => rfl, rfl, rfl, rfl,
    step_ne_next_of_halted rfl⟩

/-! ### States that agree outside the registers -/

section Agree
variable {s s' : State} (h : AgreeOutsideRegs s s')
include h

theorem accessFault_agree (kind : AccessKind) (a : Word) (n : Size) :
    accessFault s' kind a n = accessFault s kind a n := by
  simp [accessFault, h.cfg]

theorem peek_agree (a : Word) (n : Size) : peek s' a n = peek s a n := by
  simp [peek, h.mem, h.cfg]

theorem branchTarget_agree (imm : Imm16) : branchTarget s' imm = branchTarget s imm := by
  simp [branchTarget, branchBase, h.pc]

theorem jumpTarget_agree (imm : Imm26) : jumpTarget s' imm = jumpTarget s imm := by
  simp [jumpTarget, branchBase, h.pc]

end Agree

/-- t and t' come from s and s' by writing no register outside `regs`, and agree on those and outside the registers. -/
structure AgreeAfter (regs : List RegNum) (s s' t t' : State) : Prop where
  outside : AgreeOutsideRegs t t'
  written : ∀ r ∈ regs, readReg t' r = readReg t r
  others : ∀ r, r ∉ regs → readReg t r = readReg s r ∧ readReg t' r = readReg s' r

/-- Two outcomes, from s and s', are the same fault or next states that agree after a write to `regs`. -/
def AgreeOutcomes (regs : List RegNum) (s s' : State) (o o' : Result) : Prop :=
  (∀ f, o = .fault f → o' = .fault f) ∧
  (∀ t, o = .next t → ∃ t', o' = .next t' ∧ AgreeAfter regs s s' t t')

theorem agreeOutcomes_fault (regs : List RegNum) (s s' : State) (f : Fault) :
    AgreeOutcomes regs s s' (.fault f) (.fault f) :=
  ⟨fun _ hf => hf, fun _ ht => nomatch ht⟩

theorem agreeOutcomes_next {regs : List RegNum} {s s' t t' : State} (h : AgreeAfter regs s s' t t') :
    AgreeOutcomes regs s s' (.next t) (.next t') := by
  refine ⟨fun _ hf => (nomatch hf), fun u hu => ?_⟩
  cases hu
  exact ⟨t', rfl, h⟩

section AgreeStates
variable {s s' : State}

theorem agreeAfter_setPc {regs : List RegNum} {t t' : State} (h : AgreeAfter regs s s' t t') (target : Word) :
    AgreeAfter regs s s' (setPc t target) (setPc t' target) where
  outside := { h.outside with pc := rfl }
  written := h.written
  others := h.others

theorem agreeAfter_advance {regs : List RegNum} {t t' : State} (h : AgreeAfter regs s s' t t') :
    AgreeAfter regs s s' (advance t) (advance t') := by
  have := agreeAfter_setPc h (t.pc + 4#32)
  rwa [advance, advance, h.outside.pc]

variable (h : AgreeOutsideRegs s s')
include h

theorem agreeAfter_refl : AgreeAfter [] s s' s s' where
  outside := h
  written := fun _ hr => nomatch hr
  others := fun _ _ => ⟨rfl, rfl⟩

theorem agreeOutsideRegs_writeReg (r : RegNum) (v : Word) : AgreeOutsideRegs (writeReg s r v) (writeReg s' r v) where
  pc := by simp [h.pc]
  epc := by simp [h.epc]
  halted := by simp [h.halted]
  mem := by simp [h.mem]
  written := by simp [h.written]
  cfg := by simp [h.cfg]
  freeCount := by simp [h.freeCount]

theorem agreeOutsideRegs_writePair (r : RegNum) (lo hi : Word) :
    AgreeOutsideRegs (writePair s r lo hi) (writePair s' r lo hi) := by
  unfold writePair
  split
  · exact agreeOutsideRegs_writeReg h r lo
  · exact agreeOutsideRegs_writeReg (agreeOutsideRegs_writeReg h r lo) (r + 1#5) hi

theorem agreeAfter_writeReg (r : RegNum) (v : Word) : AgreeAfter [r] s s' (writeReg s r v) (writeReg s' r v) where
  outside := agreeOutsideRegs_writeReg h r v
  written := by
    intro q hq
    obtain rfl := List.mem_singleton.1 hq
    by_cases hz : q = 0#5 <;> simp [hz]
  others := by
    intro q hq
    have hne : q ≠ r := fun e => hq (List.mem_singleton.2 e)
    simp [hne]

/-- Rd and Rd+1 are written, and Rd alone when it is R31 (R104). -/
theorem agreeAfter_writePair (r : RegNum) (lo hi : Word) :
    AgreeAfter (if r = 31#5 then [r] else [r, r + 1#5]) s s' (writePair s r lo hi) (writePair s' r lo hi) := by
  by_cases hr : r = 31#5
  · simpa [writePair, hr] using agreeAfter_writeReg h 31#5 lo
  · refine ⟨agreeOutsideRegs_writePair h r lo hi, ?_, ?_⟩
    · intro q hq
      have hq : q = r ∨ q = r + 1#5 := by simpa [hr] using hq
      obtain rfl | rfl := hq
      · by_cases hz : q = 0#5 <;> simp [readReg_writePair, next_reg_ne q, hz]
      · simp [readReg_writePair, hr]
    · intro q hq
      have hq : q ≠ r ∧ q ≠ r + 1#5 := by simpa [hr] using hq
      simp [readReg_writePair, hq]

theorem agreeAfter_poke (a : Word) (n : Size) (v : Word) : AgreeAfter [] s s' (poke s a n v) (poke s' a n v) where
  outside := { h with
    mem := by simp [h.mem, h.cfg]
    written := by simp [h.written] }
  written := fun _ hr => nomatch hr
  others := fun _ _ => ⟨rfl, rfl⟩

theorem agreeAfter_raiseHalt : AgreeAfter [] s s' (raiseHalt s) (raiseHalt s') where
  outside := { h with
    pc := by simp [raiseHalt, h.freeCount]
    halted := rfl
    freeCount := by simp [h.freeCount] }
  written := fun _ hr => nomatch hr
  others := fun _ _ => ⟨rfl, rfl⟩

/-! ### Each ending of an instruction depends on no register but through its operands -/

theorem agreeOutcomes_finish {rd : RegNum} {v v' : Word} (hv : v' = v) :
    AgreeOutcomes [rd] s s' (finish s rd v) (finish s' rd v') := by
  subst hv
  exact agreeOutcomes_next (agreeAfter_advance (agreeAfter_writeReg h rd v'))

theorem agreeOutcomes_finishPair {rd : RegNum} {lo lo' hi hi' : Word} (hlo : lo' = lo) (hhi : hi' = hi) :
    AgreeOutcomes (if rd = 31#5 then [rd] else [rd, rd + 1#5]) s s' (finishPair s rd lo hi)
      (finishPair s' rd lo' hi') := by
  subst hlo hhi
  exact agreeOutcomes_next (agreeAfter_advance (agreeAfter_writePair h rd lo' hi'))

theorem agreeOutcomes_finishDivision {rd : RegNum} {r r' : Except Fault (Word × Word)} (hr : r' = r) :
    AgreeOutcomes (if rd = 31#5 then [rd] else [rd, rd + 1#5]) s s' (finishDivision s rd r)
      (finishDivision s' rd r') := by
  subst hr
  cases r' with
  | error f => exact agreeOutcomes_fault _ s s' f
  | ok p => exact agreeOutcomes_finishPair h rfl rfl

theorem agreeOutcomes_load {rd : RegNum} {a a' : Word} (ha : a' = a) (n : Size) (extend : Word → Word) :
    AgreeOutcomes [rd] s s' (load s rd a n extend) (load s' rd a' n extend) := by
  subst ha
  rw [load, load, accessFault_agree h]
  split
  · exact agreeOutcomes_fault _ s s' _
  · exact agreeOutcomes_finish h (by rw [peek_agree h])

theorem agreeOutcomes_store {a a' v v' : Word} (ha : a' = a) (hv : v' = v) (n : Size) :
    AgreeOutcomes [] s s' (store s a n v) (store s' a' n v') := by
  subst ha hv
  rw [store, store, accessFault_agree h]
  split
  · exact agreeOutcomes_fault _ s s' _
  · exact agreeOutcomes_next (agreeAfter_advance (agreeAfter_poke h a' n v'))

theorem agreeOutcomes_transfer {target target' : Word} (ht : target' = target) :
    AgreeOutcomes [] s s' (transfer s target) (transfer s' target') := by
  subst ht
  exact agreeOutcomes_next (agreeAfter_setPc (agreeAfter_refl h) target')

theorem agreeOutcomes_transferChecked {target target' : Word} (ht : target' = target) :
    AgreeOutcomes [] s s' (transferChecked s target) (transferChecked s' target') := by
  subst ht
  unfold transferChecked
  split
  · exact agreeOutcomes_transfer h rfl
  · exact agreeOutcomes_fault _ s s' _

theorem agreeOutcomes_branchIf {taken taken' : Bool} (ht : taken' = taken) (imm : Imm16) :
    AgreeOutcomes [] s s' (branchIf s taken imm) (branchIf s' taken' imm) := by
  subst ht
  rw [branchIf_eq, branchIf_eq, branchTarget_agree h, h.pc]
  exact agreeOutcomes_next (agreeAfter_setPc (agreeAfter_refl h) _)

theorem agreeOutcomes_execCall (imm : Imm26) : AgreeOutcomes [31#5] s s' (execCall imm s) (execCall imm s') := by
  rw [execCall, execCall, h.pc]
  exact agreeOutcomes_next (agreeAfter_setPc (agreeAfter_writeReg h 31#5 _) (callTarget imm))

theorem agreeOutcomes_returnFromException :
    AgreeOutcomes [] s s' (returnFromException s) (returnFromException s') := by
  rw [returnFromException, returnFromException, h.epc]
  split
  · exact agreeOutcomes_fault _ s s' _
  · exact agreeOutcomes_transferChecked h rfl

/-- The registers of R24's row decide the operands, and the operands decide the outcome. -/
theorem agreeOutcomes_exec {i : Instr} (hread : ∀ r ∈ regsRead i, readReg s' r = readReg s r) :
    AgreeOutcomes (regsWritten i) s s' (exec i s) (exec i s') := by
  cases i <;> simp only [regsRead, List.forall_mem_cons] at hread
  case add | sub | sll | srl | and | or | nor | xor =>
    obtain ⟨hs, ht, -⟩ := hread
    exact agreeOutcomes_finish h (by rw [hs, ht])
  case addi | subi | slli | srli | andi | ori =>
    obtain ⟨hs, -⟩ := hread
    exact agreeOutcomes_finish h (by rw [hs])
  case lui => exact agreeOutcomes_finish h rfl
  case mulu | mul =>
    obtain ⟨hs, ht, -⟩ := hread
    exact agreeOutcomes_finishPair h (by rw [hs, ht]) (by rw [hs, ht])
  case divu | div =>
    obtain ⟨hs, ht, -⟩ := hread
    exact agreeOutcomes_finishDivision h (by rw [hs, ht])
  case lb | lh | lw | lbu | lhu =>
    obtain ⟨hbase, -⟩ := hread
    exact agreeOutcomes_load h (by rw [hbase]) _ _
  case sb | sh | sw =>
    obtain ⟨hbase, hdata, -⟩ := hread
    exact agreeOutcomes_store h (by rw [hbase]) hdata _
  case jr =>
    obtain ⟨hd, -⟩ := hread
    exact agreeOutcomes_transferChecked h hd
  case call imm => exact agreeOutcomes_execCall h imm
  case b imm => exact agreeOutcomes_transfer h (jumpTarget_agree h imm)
  case beq | bne | bge | bgeu | bgt | bgtu | ble | bleu | blt | bltu =>
    obtain ⟨hd, hs, -⟩ := hread
    exact agreeOutcomes_branchIf h (by rw [hd, hs]) _
  case eret => exact agreeOutcomes_returnFromException h
  case halt => exact agreeOutcomes_next (agreeAfter_raiseHalt h)

end AgreeStates

/-- Settles O20: `agreeOutcomes_exec` instruction by instruction, read off as the statement's two clauses. -/
theorem registersReadAndWritten : Obligations.RegistersReadAndWritten := by
  unfold Obligations.RegistersReadAndWritten
  intro i s s' h hread
  obtain ⟨hfault, hnext⟩ := agreeOutcomes_exec h hread
  refine ⟨hfault, fun t ht => ?_⟩
  obtain ⟨t', ht', hafter⟩ := hnext t ht
  exact ⟨t', ht', hafter.outside, hafter.written, hafter.others⟩

/-! ### The frame of one register written (R21, R26) -/

theorem atNext_of_pc {s t : State} (h : t.pc = s.pc + 4#32) : AtNext s t := by
  rw [AtNext, h, BitVec.toNat_add]
  rfl

theorem sameOutsideRegs_setPc (s : State) (target : Word) : SameOutsideRegs s (setPc s target) :=
  ⟨fun _ => rfl, rfl, rfl, rfl, rfl, rfl⟩

theorem writesReg_advance_writeReg (s : State) (rd : RegNum) (v : Word) :
    WritesReg s (advance (writeReg s rd v)) rd v where
  zero := readReg_zero _
  dest := fun hne => by simp [hne]
  others := fun r hr => by simp [hr]
  rest := ⟨fun _ => by simp, by simp, by simp, by simp, by simp, by simp⟩

theorem atNext_advance_writeReg (s : State) (rd : RegNum) (v : Word) : AtNext s (advance (writeReg s rd v)) :=
  atNext_of_pc (by simp)

/-! ### Writes to R0 are dropped (R21, R104) -/

theorem finish_zero (s : State) (v : Word) : finish s 0#5 v = .next { s with pc := s.pc + 4#32 } := by
  rw [finish, writeReg_zero]
  rfl

/-- With Rd = R0 the low result is lost and the high one goes to R1. -/
theorem finishPair_zero (s : State) (lo hi : Word) :
    finishPair s 0#5 lo hi = .next (advance (writeReg s 1#5 hi)) := by
  simp [finishPair, writePair]

/-- HI of the unsigned product is the product's number over 2^32 (R8, R105). -/
theorem toNat_productHi_unsignedProduct (a b : Word) :
    (productHi (unsignedProduct a b)).toNat = a.toNat * b.toNat / 2 ^ 32 := by
  have hlt : a.toNat * b.toNat < 2 ^ 32 * 2 ^ 32 := Nat.mul_lt_mul'' a.isLt b.isLt
  rw [productHi, unsignedProduct, BitVec.extractLsb'_toNat, BitVec.toNat_ofNat, Nat.shiftRight_eq_div_pow]
  omega

/-- Settles O21: the one-result instructions and LW end in `finish`, MULU in `finishPair`. -/
theorem writesToR0AreDropped : Obligations.WritesToR0AreDropped := by
  unfold Obligations.WritesToR0AreDropped
  intro s rs rt imm
  refine ⟨fun i hi => ?_, fun haccess => ?_, ?_⟩
  · fin_cases hi <;> exact finish_zero s _
  · have hload := load_of_allowed (rd := 0#5) (f := id) haccess
    exact hload.trans (finish_zero s _)
  · exact ⟨_, productHi (unsignedProduct (readReg s rs) (readReg s rt)), finishPair_zero s _ _,
      writesReg_advance_writeReg s 1#5 _, atNext_advance_writeReg s 1#5 _, toNat_productHi_unsignedProduct _ _⟩

/-! ### ERET (R191, R235) -/

theorem transferChecked_of_not_aligned {s : State} {target : Word} (h : target.toNat % 4 ≠ 0) :
    transferChecked s target = .fault .misalignedTarget :=
  if_neg (mt aligned_iff.1 h)

theorem exec_eret_of_saved {s : State} {a : Word} (h : s.epc = some a) : exec .eret s = transferChecked s a := by
  simp [exec, execEret, returnFromException, h]

theorem exec_eret_of_none {s : State} (h : s.epc = none) : exec .eret s = .fault .eretNoAddress := by
  simp [exec, execEret, returnFromException, h]

/-- Settles O43: with an address saved, ERET is the checked transfer to it. -/
theorem eretResumesAtTheSavedAddress : Obligations.EretResumesAtTheSavedAddress := by
  unfold Obligations.EretResumesAtTheSavedAddress
  intro s
  have hword : (encode .eret).toNat = 0xF8000000 := by simp [encode, toNat_packN]
  refine ⟨hword, fun a ha haligned => ?_, fun a ha hmis => ?_, exec_eret_of_none⟩
  · refine ⟨setPc s a, ?_, rfl, fun _ => rfl, sameOutsideRegs_setPc s a⟩
    rw [exec_eret_of_saved ha, transferChecked_of_aligned (aligned_iff.2 haligned)]
  · rw [exec_eret_of_saved ha, transferChecked_of_not_aligned hmis]

/-! ### What a step runs (R27, R57 to R59, R82) -/

/-- An aligned word does not wrap, so its four bytes lie at a, a+1, a+2, a+3. -/
theorem peek_word_of_aligned (s : State) {a : Word} (h : a.toNat % 4 = 0) :
    peek s a .word = fromBytes s.cfg.byteOrder
      [s.mem.read a.toNat, s.mem.read (a.toNat + 1), s.mem.read (a.toNat + 2), s.mem.read (a.toNat + 3)] := by
  have hbelow : a.toNat + 4 ≤ 4294967296 := access_below (n := .word) h
  have hwrap : ∀ k, k < 4 → wrapAddr (a.toNat + k) = a.toNat + k := fun k hk => wrapAddr_of_lt (by omega)
  simp [peek, Size.bytes, Memory.readBytes, Nat.add_assoc, hwrap]

theorem anyAddr_eq_false {ks : List Nat} {a n : Nat} (h : ∀ k, k < n → a + k ∉ ks) : anyAddr ks a n = false := by
  rw [Bool.eq_false_iff, ne_eq, anyAddr_iff]
  rintro ⟨c, hle, hlt, hmem⟩
  exact h (c - a) (by omega) (by rwa [Nat.add_sub_cancel' hle])

/-- Settles O8: the four premises are the tests of the fetch, one by one. -/
theorem stepRunsTheDecodedInstruction : Obligations.StepRunsTheDecodedInstruction := by
  unfold Obligations.StepRunsTheDecodedInstruction
  rintro s i _ _ _ _ hrun hpc hallowed hunwritten rfl rfl rfl rfl hdecode
  have hpeek : decode (peek s s.pc .word) = .ok i := by
    rw [peek_word_of_aligned s hpc]
    exact hdecode
  exact step_of_fetch hrun
    (fetchInstr_of (aligned_iff.2 hpc) (mapAllowsAll_iff.2 hallowed) (anyAddr_eq_false hunwritten) hpeek)

/-! ### Reset (R34, R261) -/

/-- Settles O13: State.reset is the launch with the chosen parameters, whose `RESET_PC` is 0. -/
theorem resetLeavesWhatTheSpecGives : Obligations.ResetLeavesWhatTheSpecGives := by
  unfold Obligations.ResetLeavesWhatTheSpecGives
  have hlaunch : State.reset.IsLaunch := ⟨Config.chosen, Vector.replicate 32 0, [], none, rfl, rfl⟩
  exact ⟨hlaunch, readReg_zero _, rfl, rfl, rfl, rfl, rfl⟩

end Sys2Proof.Machine
end

section
/-! PROOFS of the family 20_memory: the written set (O50, O51, O16), the fetch's faults (O9) and a placed word (O18), the
canonical form of memory (O17), what stores change (O19), where accesses stop (O33), bytes of words (O7, O35), addresses
(O30, O42), directives (O49) and segments (O52). -/

namespace Sys2Proof.Machine

/-! ### The written set stays where MEM_MAP lets a write through (R41, R48, R59) -/

theorem writtenAllowed_of_same {s t : State} (h : s.WrittenAllowed) (hw : t.written = s.written)
    (hc : t.cfg = s.cfg) : t.WrittenAllowed := by
  unfold State.WrittenAllowed
  rwa [hw, hc]

/-- A store records only the bytes it was let through to. -/
theorem writtenAllowed_poke {s : State} {a : Word} {n : Size} (v : Word) (h : s.WrittenAllowed)
    (ha : accessFault s .write a n = none) : (poke s a n v).WrittenAllowed := by
  obtain ⟨-, hmap⟩ := accessFault_none_iff.1 ha
  intro c hc
  rw [poke_written, mem_addAddrs] at hc
  obtain ⟨hle, hlt⟩ | hold := hc
  · have := hmap (c - a.toNat) (by omega)
    rwa [Nat.add_sub_cancel' hle] at this
  · exact h c hold

theorem exec_next_writtenAllowed {i : Instr} {s t : State} (h : s.WrittenAllowed) (hexec : exec i s = .next t) :
    t.WrittenAllowed := by
  obtain ⟨rd, v, rfl⟩ | ⟨rd, lo, hi, rfl⟩ | ⟨a, n, v, ha, rfl⟩ | ⟨r, v, target, -, rfl⟩ | ⟨-, rfl⟩ :=
    exec_next_cases hexec
  · exact writtenAllowed_of_same h (by simp) (by simp)
  · exact writtenAllowed_of_same h (by simp) (by simp)
  · exact writtenAllowed_of_same (writtenAllowed_poke v h ha) rfl rfl
  · exact writtenAllowed_of_same h (by simp) (by simp)
  · exact writtenAllowed_of_same h rfl rfl

/-- Settles O50: a step that goes on is an exec, and of the five things exec can do only a store adds written bytes, each
tested by `accessFault`. -/
theorem everyStepKeepsWrittenAllowed : Obligations.EveryStepKeepsWrittenAllowed := by
  unfold Obligations.EveryStepKeepsWrittenAllowed
  intro s t h hstep
  obtain ⟨-, i, -, hexec⟩ := step_next hstep
  exact exec_next_writtenAllowed h hexec

/-- Settles O51: a launch state has written nothing. -/
theorem launchMeetsWrittenAllowed : Obligations.LaunchMeetsWrittenAllowed := by
  unfold Obligations.LaunchMeetsWrittenAllowed
  rintro s ⟨c, regs, mem, epc, -, rfl⟩ a ha
  cases ha

/-! ### Runs (R193) -/

/-- What every step keeps holds at the end of every run that it holds at the start of. -/
theorem Steps.keeps {P : State → Prop} (hkeep : ∀ s t, P s → step s = .next t → P t) {s t : State} (hrun : Steps s t)
    (h : P s) : P t := by
  induction hrun with
  | refl => exact h
  | tail _ hlast ih => exact hkeep _ _ ih hlast

theorem steps_cfg {s t : State} (hrun : Steps s t) : t.cfg = s.cfg :=
  hrun.keeps (P := fun u => u.cfg = s.cfg)
    (fun u v hu hstep => (everyStepKeepsTheParameters u v hstep).1.trans hu) rfl

theorem steps_writtenAllowed {s t : State} (hrun : Steps s t) (h : s.WrittenAllowed) : t.WrittenAllowed :=
  hrun.keeps everyStepKeepsWrittenAllowed h

/-! ### What each ending of an instruction raises (R41, R46, R110, R161, R191) -/

theorem accessFault_some_mem {s : State} {kind : AccessKind} {a : Word} {n : Size} {f : Fault}
    (h : accessFault s kind a n = some f) : f = .misalignedData ∨ f = .accessNotAdmitted := by
  obtain ⟨-, hf⟩ | ⟨-, hf, -⟩ := accessFault_some_iff.1 h
  · exact .inl hf
  · exact .inr hf

theorem load_fault {s : State} {rd : RegNum} {a : Word} {n : Size} {extend : Word → Word} {f : Fault}
    (h : load s rd a n extend = .fault f) : accessFault s .read a n = some f := by
  unfold load at h
  split at h
  · cases h
    assumption
  · cases h

theorem store_fault {s : State} {a : Word} {n : Size} {v : Word} {f : Fault} (h : store s a n v = .fault f) :
    accessFault s .write a n = some f := by
  unfold store at h
  split at h
  · cases h
    assumption
  · cases h

theorem finishDivision_fault {s : State} {rd : RegNum} {r : Except Fault (Word × Word)} {f : Fault}
    (h : finishDivision s rd r = .fault f) : r = .error f := by
  cases r with
  | error e => cases h; rfl
  | ok p => cases h

theorem divideUnsigned_error {a b : Word} {f : Fault} (h : divideUnsigned a b = .error f) : f = .divideByZero := by
  unfold divideUnsigned at h
  split at h
  · cases h; rfl
  · cases h

theorem divideSigned_error {a b : Word} {f : Fault} (h : divideSigned a b = .error f) :
    f = .divideByZero ∨ f = .divideOverflow := by
  unfold divideSigned divideSignedWith at h
  split at h
  · cases h; exact .inl rfl
  · split at h
    · cases h; exact .inr rfl
    · split at h <;> cases h

theorem transferChecked_fault {s : State} {target : Word} {f : Fault} (h : transferChecked s target = .fault f) :
    f = .misalignedTarget := by
  unfold transferChecked transfer at h
  split at h
  · cases h
  · cases h; rfl

theorem returnFromException_fault {s : State} {f : Fault} (h : returnFromException s = .fault f) :
    f = .eretNoAddress ∨ f = .misalignedTarget := by
  unfold returnFromException at h
  split at h
  · cases h; exact .inl rfl
  · exact .inr (transferChecked_fault h)

/-- The faults of R236 that an instruction's own tests raise; the others are the fetch's, decode's and the halted state's. -/
theorem exec_fault_mem {i : Instr} {s : State} {f : Fault} (h : exec i s = .fault f) :
    f ∈ [Fault.misalignedData, .accessNotAdmitted, .divideByZero, .divideOverflow, .misalignedTarget,
      .eretNoAddress] := by
  cases i <;> simp only [exec] at h
  case lb | lh | lw | lbu | lhu => obtain rfl | rfl := accessFault_some_mem (load_fault h) <;> decide
  case sb | sh | sw => obtain rfl | rfl := accessFault_some_mem (store_fault h) <;> decide
  case divu => obtain rfl := divideUnsigned_error (finishDivision_fault h); decide
  case div => obtain rfl | rfl := divideSigned_error (finishDivision_fault h) <;> decide
  case jr => obtain rfl := transferChecked_fault h; decide
  case eret => obtain rfl | rfl := returnFromException_fault h <;> decide
  case beq | bne | bge | bgeu | bgt | bgtu | ble | bleu | blt | bltu => exact nomatch (branchIf_eq ..).symm.trans h
  all_goals cases h -- the rest ends in `.next`

/-! ### The fetch and decode, test by test (R57, R59, R79, R80, R237) -/

theorem fetchWord_of_misaligned {s : State} (h : s.pc.toNat % 4 ≠ 0) : fetchWord s = .error .misalignedFetch := by
  have ha : s.pc.aligned = false := by simpa [← aligned_iff] using h
  simp [fetchWord, ha]

theorem fetchWord_of_not_admitted {s : State} (h : s.pc.toNat % 4 = 0)
    (hmap : ∃ k, k < 4 ∧ mapAllows s.cfg .fetch (s.pc.toNat + k) = false) :
    fetchWord s = .error .accessNotAdmitted := by
  obtain ⟨k, hk, hno⟩ := hmap
  have hall : mapAllowsAll s.cfg .fetch s.pc.toNat 4 = false := by
    rw [Bool.eq_false_iff, ne_eq, mapAllowsAll_iff]
    intro hyes
    simp [hyes k hk] at hno
  simp [fetchWord, aligned_iff.2 h, hall]

theorem fetchWord_of_modified {s : State} (h : s.pc.toNat % 4 = 0)
    (hmap : ∀ k, k < 4 → mapAllows s.cfg .fetch (s.pc.toNat + k) = true)
    (hw : ∃ k, k < 4 ∧ s.pc.toNat + k ∈ s.written) : fetchWord s = .error .fetchOfModified := by
  obtain ⟨k, hk, hmem⟩ := hw
  have hany : anyAddr s.written s.pc.toNat 4 = true := anyAddr_iff.2 ⟨s.pc.toNat + k, by omega, by omega, hmem⟩
  simp [fetchWord, aligned_iff.2 h, mapAllowsAll_iff.2 hmap, hany]

theorem fetchWord_of_clean {s : State} (h : s.pc.toNat % 4 = 0)
    (hmap : ∀ k, k < 4 → mapAllows s.cfg .fetch (s.pc.toNat + k) = true)
    (hw : ∀ k, k < 4 → s.pc.toNat + k ∉ s.written) : fetchWord s = .ok (peek s s.pc .word) := by
  simp [fetchWord, aligned_iff.2 h, mapAllowsAll_iff.2 hmap, anyAddr_eq_false hw]

theorem fetchInstr_of_fetchWord_error {s : State} {f : Fault} (h : fetchWord s = .error f) :
    fetchInstr s = .error f := by
  simp [fetchInstr, h]

theorem fetchInstr_of_decode_error {s : State} {w : Word} {e : DecodeError} (hw : fetchWord s = .ok w)
    (he : decode w = .error e) : fetchInstr s = .error (decodeFault e) := by
  simp [fetchInstr, hw, he]

/-- A fetch that meets a stored byte has passed the map's test and found one of its four bytes in the written set. -/
theorem fetchWord_modified {s : State} (h : fetchWord s = .error .fetchOfModified) :
    ∃ c ∈ s.written, mapAllows s.cfg .fetch c = true := by
  unfold fetchWord at h
  split at h
  · cases h
  · split at h
    · cases h
    · rename_i hmap
      split at h
      · rename_i hany
        obtain ⟨c, hle, hlt, hmem⟩ := anyAddr_iff.1 hany
        have := mapAllowsAll_iff.1 (by simpa using hmap) (c - s.pc.toNat) (by omega)
        exact ⟨c, hmem, by rwa [Nat.add_sub_cancel' hle] at this⟩
      · cases h

theorem fetchInstr_error {s : State} {f : Fault} (h : fetchInstr s = .error f) :
    fetchWord s = .error f ∨ ∃ e, f = decodeFault e := by
  unfold fetchInstr at h
  split at h
  · cases h
    exact .inl ‹_›
  · split at h
    · cases h
      exact .inr ⟨_, rfl⟩
    · cases h

/-- Everything a step that stops with a fault has met: the halt line, the fetch or decode, or the execution. -/
theorem step_fault {s : State} {f : Fault} (h : step s = .fault f) :
    f = .stuckHalted ∨ fetchInstr s = .error f ∨ ∃ i, exec i s = .fault f := by
  unfold step stepBody at h
  split at h
  · cases h
    exact .inl rfl
  · split at h
    · cases h
      exact .inr (.inl ‹_›)
    · exact .inr (.inr ⟨_, h⟩)

/-- Only the fetch's own test raises FetchOfModified (R236). -/
theorem step_modified {s : State} (h : step s = .fault .fetchOfModified) :
    ∃ c ∈ s.written, mapAllows s.cfg .fetch c = true := by
  obtain hstuck | hfetch | ⟨i, hexec⟩ := step_fault h
  · cases hstuck
  · obtain hword | ⟨e, he⟩ := fetchInstr_error hfetch
    · exact fetchWord_modified hword
    · cases e <;> cases he
  · exact absurd (exec_fault_mem hexec) (by decide)

/-- Settles O16: a stored byte is let through for write, a fetched one for fetch, and no byte for both. -/
theorem textNotWritableExcludesFetchOfModified : Obligations.TextNotWritableExcludesFetchOfModified := by
  unfold Obligations.TextNotWritableExcludesFetchOfModified
  intro s t hlaunch htext hrun hfault
  obtain ⟨c, hmem, hfetch⟩ := step_modified hfault
  have hwrite := steps_writtenAllowed hrun (launchMeetsWrittenAllowed s hlaunch) c hmem
  rw [steps_cfg hrun] at hfetch hwrite
  rw [htext c hfetch] at hwrite
  cases hwrite

/-! ### Words in memory, byte by byte (R44, R47) -/

theorem toNat_four_bytes (b0 b1 b2 b3 : Byte) :
    (b3 ++ b2 ++ b1 ++ b0).toNat = b3.toNat * 16777216 + b2.toNat * 65536 + b1.toNat * 256 + b0.toNat := by
  rw [toNat_append_add, toNat_append_add, toNat_append_add]
  omega

theorem lowBytes_four (b0 b1 b2 b3 : Byte) : lowBytes 4 (b3 ++ b2 ++ b1 ++ b0) = [b0, b1, b2, b3] := by
  have h0 := b0.isLt
  have h1 := b1.isLt
  have h2 := b2.isLt
  have h3 := b3.isLt
  have hv := toNat_four_bytes b0 b1 b2 b3
  simp only [lowBytes, List.cons.injEq, and_true, ← BitVec.toNat_inj, BitVec.toNat_setWidth, BitVec.toNat_ushiftRight,
    Nat.shiftRight_eq_div_pow, hv]
  omega

theorem ofLowBytes_four (b0 b1 b2 b3 : Byte) : ofLowBytes [b0, b1, b2, b3] = b3 ++ b2 ++ b1 ++ b0 := by
  rw [← lowBytes_four]
  exact ofLowBytes_lowBytes_word _

/-- Settles O7: big-endian order is the little-endian one reversed. -/
theorem wordBytesByOrder : Obligations.WordBytesByOrder := by
  unfold Obligations.WordBytesByOrder
  intro b0 b1 b2 b3
  refine ⟨ofLowBytes_four b0 b1 b2 b3, ofLowBytes_four b3 b2 b1 b0, lowBytes_four b0 b1 b2 b3, ?_⟩
  rw [toBytes, lowBytes_four]
  rfl

theorem ofLowBytes_two (b0 b1 : Byte) : ofLowBytes [b0, b1] = (b1 ++ b0).setWidth 32 := by
  have hzeros : ofLowBytes [b0, b1] = ofLowBytes [b0, b1, 0#8, 0#8] := by simp [ofLowBytes]
  have h0 := b0.isLt
  have h1 := b1.isLt
  apply BitVec.eq_of_toNat_eq
  rw [hzeros, ofLowBytes_four, toNat_four_bytes, BitVec.toNat_setWidth, toNat_append_add]
  simp
  omega

/-- What `wordAt` puts together is what a fetch or a load of a word assembles. -/
theorem fromBytes_readBytes_word (s : State) (a : Nat) :
    fromBytes s.cfg.byteOrder (s.mem.readBytes a 4) = wordAt s a := by
  unfold fromBytes wordAt
  cases s.cfg.byteOrder
  · exact ofLowBytes_four _ _ _ _
  · exact ofLowBytes_four _ _ _ _

theorem peek_word (s : State) (a : Word) : peek s a .word = wordAt s a.toNat := fromBytes_readBytes_word s a.toNat

theorem fromBytes_readBytes_half (s : State) (a : Nat) :
    fromBytes s.cfg.byteOrder (s.mem.readBytes a 2) = (halfAt s a).setWidth 32 := by
  unfold fromBytes halfAt
  cases s.cfg.byteOrder
  · exact ofLowBytes_two _ _
  · exact ofLowBytes_two _ _

theorem peek_half (s : State) (a : Word) : peek s a .half = (halfAt s a.toNat).setWidth 32 :=
  fromBytes_readBytes_half s a.toNat

theorem peek_byte (s : State) (a : Word) : peek s a .byte = (s.mem.read a.toNat).setWidth 32 := by
  cases h : s.cfg.byteOrder <;> simp [peek, Size.bytes, Memory.readBytes, fromBytes, ofLowBytes, h]

/-- Settles O9: each clause is one test of the fetch or of decode, with the earlier ones passed. -/
theorem fetchAndDecodeFaultsInOrder : Obligations.FetchAndDecodeFaultsInOrder := by
  unfold Obligations.FetchAndDecodeFaultsInOrder
  intro s hrun
  have fetch : ∀ {f}, fetchWord s = .error f → step s = .fault f := fun h =>
    step_of_fault hrun (fetchInstr_of_fetchWord_error h)
  refine ⟨fun hmis => fetch (fetchWord_of_misaligned hmis), fun hpc hno => fetch (fetchWord_of_not_admitted hpc hno),
    fun hpc hmap => ⟨fun hw => fetch (fetchWord_of_modified hpc hmap hw), fun hclean => ?_⟩⟩
  have hword := fetchWord_of_clean hpc hmap hclean
  rw [peek_word] at hword
  exact ⟨fun he => step_of_fault hrun (fetchInstr_of_decode_error hword he),
    fun he => step_of_fault hrun (fetchInstr_of_decode_error hword he)⟩

/-! ### A word placed at `pc` (log 26) -/

theorem tableWord_32 (w : Nat) : tableWord 32 w = BitVec.ofNat 32 w := by
  apply BitVec.eq_of_toNat_eq
  simp [tableWord]

theorem mapAllowsAll_mapWithFetch (c : Config) (a : Nat) : mapAllowsAll (mapWithFetch c a) .fetch a 4 = true := by
  unfold mapWithFetch
  split
  · assumption
  · rw [mapAllowsAll_iff]
    intro i hi
    simp [mapAllows, regionCovers, regionAllows, hi]

@[simp] theorem mapWithFetch_byteOrder (c : Config) (a : Nat) : (mapWithFetch c a).byteOrder = c.byteOrder := by
  unfold mapWithFetch
  split <;> rfl

/-- The bytes of a word laid down are assembled again to the word (R44, R47). -/
theorem fromBytes_readBytes_writeBytes_word {m : Memory} (h : m.wf = true) (o : ByteOrder) (a : Nat) (w : Word) :
    fromBytes o ((m.writeBytes a (toBytes o 4 w)).readBytes a 4) = w := by
  have hread := readBytes_writeBytes h (a := a) (toBytes o 4 w) (by simp)
  rw [toBytes_length] at hread
  rw [hread, fromBytes_toBytes_word]

theorem peek_placeWord {s : State} (h : s.mem.wf = true) (w : Word) : peek (placeWord s w) s.pc .word = w := by
  simpa [peek, placeWord, Size.bytes] using fromBytes_readBytes_writeBytes_word h s.cfg.byteOrder s.pc.toNat w

theorem fetchInstr_placeWord {s : State} {w : Word} {i : Instr} (h : s.mem.wf = true) (hpc : s.pc.toNat % 4 = 0)
    (hdecode : decode w = .ok i) : fetchInstr (placeWord s w) = .ok i := by
  have hclean : anyAddr (placeWord s w).written s.pc.toNat 4 = false :=
    anyAddr_eq_false fun k hk => by simp [placeWord, hk]
  refine fetchInstr_of (aligned_iff.2 hpc) (mapAllowsAll_mapWithFetch _ _) hclean ?_
  exact (congrArg decode (peek_placeWord h w)).trans hdecode

/-- Settles O18: the placed word passes each test of the fetch. -/
theorem placedWordIsRunNext : Obligations.PlacedWordIsRunNext := by
  unfold Obligations.PlacedWordIsRunNext
  intro s w i hwf hpc hdecode
  rw [State.withFetchWord, tableWord_32]
  exact step_of_fetch rfl (fetchInstr_placeWord hwf hpc hdecode)

/-! ### The canonical form is one form (R40, R45, log 5) -/

theorem read_head (m : Memory) (k : Nat) (v : Byte) : Memory.read ((k, v) :: m) k = v := if_pos rfl

/-- Every address below the first entry is unlisted, so the first entries of memories that read alike agree. -/
theorem head_addr_le {k k' : Nat} {v v' : Byte} {m m' : Memory} {lo lo' : Nat}
    (h : Memory.wfFrom lo ((k, v) :: m) = true) (h' : Memory.wfFrom lo' ((k', v') :: m') = true)
    (hread : ∀ a, Memory.read ((k, v) :: m) a = Memory.read ((k', v') :: m') a) : k' ≤ k := by
  obtain ⟨-, -, hv, -⟩ := wfFrom_cons.1 h
  obtain ⟨-, hk', hv', hm'⟩ := wfFrom_cons.1 h'
  by_contra hlt
  have hfrom : Memory.wfFrom k' ((k', v') :: m') = true := wfFrom_cons.2 ⟨le_refl k', hk', hv', hm'⟩
  have hunlisted : Memory.read ((k', v') :: m') k = unlistedByte := read_below hfrom (by omega)
  rw [← hread, read_head] at hunlisted
  exact hv hunlisted

theorem eq_of_read_eq {m m' : Memory} {lo lo' : Nat} (h : Memory.wfFrom lo m = true)
    (h' : Memory.wfFrom lo' m' = true) (hread : ∀ a, m.read a = m'.read a) : m = m' := by
  induction m generalizing m' lo lo' with
  | nil =>
    cases m' with
    | nil => rfl
    | cons e m' =>
      obtain ⟨k, v⟩ := e
      have hv : v = unlistedByte := (read_head m' k v).symm.trans (hread k).symm
      exact absurd hv (wfFrom_cons.1 h').2.2.1
  | cons e m ih =>
    obtain ⟨k, v⟩ := e
    cases m' with
    | nil =>
      have hv : v = unlistedByte := (read_head m k v).symm.trans (hread k)
      exact absurd hv (wfFrom_cons.1 h).2.2.1
    | cons e' m' =>
      obtain ⟨k', v'⟩ := e'
      obtain rfl : k' = k := le_antisymm (head_addr_le h h' hread) (head_addr_le h' h fun a => (hread a).symm)
      obtain rfl : v = v' := by simpa [read_head] using hread k'
      obtain ⟨-, -, -, hm⟩ := wfFrom_cons.1 h
      obtain ⟨-, -, -, hm'⟩ := wfFrom_cons.1 h'
      have htail : ∀ a, Memory.read m a = Memory.read m' a := by
        intro a
        by_cases ha : a = k'
        · rw [read_below hm (by omega), read_below hm' (by omega)]
        · simpa [Memory.read, ha] using hread a
      rw [ih hm hm' htail]

/-- Settles O17: the entries agree one after the other. -/
theorem memoriesThatReadAlikeAreEqual : Obligations.MemoriesThatReadAlikeAreEqual := by
  unfold Obligations.MemoriesThatReadAlikeAreEqual
  intro m m' h h' hread
  exact eq_of_read_eq h h' hread

/-! ### What an instruction does to memory (R42, R48, R59) -/

theorem exec_next_of_not_store {i : Instr} {s t : State} (hi : storeOf i = none) (h : exec i s = .next t) :
    t.mem = s.mem ∧ t.written = s.written := by
  cases i <;> simp only [exec] at h
  case sb | sh | sw => cases hi
  case divu | div =>
    obtain ⟨_, _, -, rfl⟩ := finishDivision_next h
    simp
  case lb | lh | lw | lbu | lhu =>
    obtain ⟨-, rfl⟩ := load_next h
    simp
  case jr =>
    obtain ⟨-, rfl⟩ := transferChecked_next h
    simp
  case beq | bne | bge | bgeu | bgt | bgtu | ble | bleu | blt | bltu =>
    cases (branchIf_eq ..).symm.trans h
    simp
  case eret =>
    obtain ⟨_, -, -, rfl⟩ := returnFromException_next h
    simp
  all_goals -- the other instructions end in `.next` in every state
    cases h
    simp

/-- SB, SH and SW are `store` of their size at base plus offset (R146 to R148). -/
theorem exec_of_storeOf {i : Instr} {n : Nat} {base data : RegNum} {off : Imm16} (s : State)
    (h : storeOf i = some (n, base, data, off)) :
    ∃ size : Size, size.bytes = n ∧ exec i s = store s (effAddr (readReg s base) off) size (readReg s data) := by
  cases i <;> cases h
  case sb.refl => exact ⟨.byte, rfl, rfl⟩
  case sh.refl => exact ⟨.half, rfl, rfl⟩
  case sw.refl => exact ⟨.word, rfl, rfl⟩

theorem storesAt_poke {s : State} {a : Word} {n : Size} (v : Word) (hwf : s.mem.wf = true)
    (ha : a.toNat % n.bytes = 0) : StoresAt s (advance (poke s a n v)) a.toNat n.bytes where
  regs := fun _ => rfl
  outside := fun c hc => by
    have hbelow := access_below ha
    rw [advance_mem, poke_mem]
    exact read_writeBytes_outside hwf _ (by simpa using hbelow) (by simpa using hc)
  written := fun c => by
    rw [advance_written, poke_written, mem_addAddrs, or_comm]
  epc := rfl
  halted := rfl
  cfg := rfl
  freeCount := rfl

/-- Settles O19: the stores are `store`, and every other instruction leaves memory and the written set alone. -/
theorem onlyStoresChangeMemory : Obligations.OnlyStoresChangeMemory := by
  unfold Obligations.OnlyStoresChangeMemory
  intro i s t hexec
  refine ⟨fun hi => ?_, fun n base data off hi hwf => ?_⟩
  · obtain ⟨hmem, hwritten⟩ := exec_next_of_not_store hi hexec
    exact ⟨fun a => by rw [hmem], hwritten⟩
  · obtain ⟨size, rfl, hstore⟩ := exec_of_storeOf s hi
    obtain ⟨haccess, rfl⟩ := store_next (hstore.symm.trans hexec)
    exact storesAt_poke _ hwf (accessFault_none_iff.1 haccess).1

/-! ### Where loads and stores stop (R41, R46 to R48, R237) -/

theorem accessFault_of_misaligned {s : State} {a : Word} (kind : AccessKind) (n : Size) (h : a.toNat % n.bytes ≠ 0) :
    accessFault s kind a n = some .misalignedData :=
  accessFault_some_iff.2 (.inl ⟨h, rfl⟩)

theorem accessFault_of_not_admitted {s : State} {a : Word} {kind : AccessKind} {n : Size}
    (h : a.toNat % n.bytes = 0) (hmap : ∃ k, k < n.bytes ∧ mapAllows s.cfg kind (a.toNat + k) = false) :
    accessFault s kind a n = some .accessNotAdmitted :=
  accessFault_some_iff.2 (.inr ⟨h, rfl, hmap⟩)

/-- Every byte is an aligned access. -/
theorem accessFault_byte_of_not_admitted {s : State} {a : Word} {kind : AccessKind}
    (h : mapAllows s.cfg kind a.toNat = false) : accessFault s kind a .byte = some .accessNotAdmitted :=
  accessFault_of_not_admitted (Nat.mod_one _) ⟨0, Nat.one_pos, h⟩

/-- Settles O33: each load and each store stops with the fault of its access. -/
theorem accessFaultsInOrder : Obligations.AccessFaultsInOrder := by
  unfold Obligations.AccessFaultsInOrder
  intro s rd rs imm
  constructor
  · rintro a rfl
    refine ⟨fun i hi hno => ?_, fun i hi => ⟨fun hmis => ?_, fun ha hno => ?_⟩, fun hmis => ?_, fun ha hno => ?_⟩
    · have hfault := accessFault_byte_of_not_admitted hno
      fin_cases hi <;> exact load_of_fault hfault
    · have hfault := accessFault_of_misaligned (s := s) .read .half hmis
      fin_cases hi <;> exact load_of_fault hfault
    · have hfault := accessFault_of_not_admitted (n := .half) ha hno
      fin_cases hi <;> exact load_of_fault hfault
    · exact load_of_fault (accessFault_of_misaligned .read .word hmis)
    · exact load_of_fault (accessFault_of_not_admitted ha hno)
  · rintro a rfl
    exact ⟨fun hno => store_of_fault (accessFault_byte_of_not_admitted hno),
      fun hmis => store_of_fault (accessFault_of_misaligned .write .half hmis),
      fun ha hno => store_of_fault (accessFault_of_not_admitted ha hno),
      fun hmis => store_of_fault (accessFault_of_misaligned .write .word hmis),
      fun ha hno => store_of_fault (accessFault_of_not_admitted ha hno)⟩

/-! ### Parts of a word in memory (R44, R45) -/

/-- The bytes a word store lays down are that word. -/
theorem wordAt_poke {s : State} (hwf : s.mem.wf = true) (a v : Word) :
    wordAt (advance (poke s a .word v)) a.toNat = v := by
  rw [← fromBytes_readBytes_word]
  exact fromBytes_readBytes_writeBytes_word hwf s.cfg.byteOrder a.toNat v

theorem extract_four_bytes_low (b0 b1 b2 b3 : Byte) : (b3 ++ b2 ++ b1 ++ b0).extractLsb' 0 8 = b0 := by
  apply BitVec.eq_of_toNat_eq
  rw [toNat_extract, toNat_four_bytes]
  omega

theorem extract_four_bytes_high (b0 b1 b2 b3 : Byte) : (b3 ++ b2 ++ b1 ++ b0).extractLsb' 24 8 = b3 := by
  apply BitVec.eq_of_toNat_eq
  rw [toNat_extract, toNat_four_bytes]
  omega

theorem extract_four_bytes_lowHalf (b0 b1 b2 b3 : Byte) : (b3 ++ b2 ++ b1 ++ b0).extractLsb' 0 16 = b1 ++ b0 := by
  apply BitVec.eq_of_toNat_eq
  rw [toNat_extract, toNat_four_bytes, toNat_append_add]
  omega

theorem extract_four_bytes_highHalf (b0 b1 b2 b3 : Byte) : (b3 ++ b2 ++ b1 ++ b0).extractLsb' 16 16 = b3 ++ b2 := by
  apply BitVec.eq_of_toNat_eq
  rw [toNat_extract, toNat_four_bytes, toNat_append_add]
  omega

/-- Under little, a word's own address has its lowest byte, and its upper half lies two above (R45). -/
theorem parts_of_wordAt_little {s : State} (h : s.cfg.byteOrder = .little) (a : Nat) :
    s.byteAt a = (wordAt s a).extractLsb' 0 8 ∧ halfAt s (a + 2) = (wordAt s a).extractLsb' 16 16 := by
  simp only [wordAt, halfAt, h]
  exact ⟨(extract_four_bytes_low _ _ _ _).symm, (extract_four_bytes_highHalf _ _ _ _).symm⟩

/-- Under big, a word's own address has its highest byte, and its lower half lies two above (R45). -/
theorem parts_of_wordAt_big {s : State} (h : s.cfg.byteOrder = .big) (a : Nat) :
    s.byteAt a = (wordAt s a).extractLsb' 24 8 ∧ halfAt s (a + 2) = (wordAt s a).extractLsb' 0 16 := by
  simp only [wordAt, halfAt, h]
  exact ⟨(extract_four_bytes_high _ _ _ _).symm, (extract_four_bytes_lowHalf _ _ _ _).symm⟩

@[simp] theorem byteAt_toNat (s : State) (a : Word) : s.byteAt a.toNat = s.mem.read a.toNat :=
  congrArg s.mem.read (wrapAddr_toNat a)

theorem exec_lbu_of_allowed {s : State} {rd rs : RegNum} {imm : Imm16}
    (h : mapAllows s.cfg .read (effAddr (readReg s rs) imm).toNat = true) :
    exec (.lbu rd rs imm) s =
      .next (advance (writeReg s rd ((s.mem.read (effAddr (readReg s rs) imm).toNat).setWidth 32))) := by
  have haccess : accessFault s .read (effAddr (readReg s rs) imm) .byte = none :=
    accessFault_none_iff.2 ⟨Nat.mod_one _, fun i hi => by
      obtain rfl : i = 0 := Nat.lt_one_iff.1 hi
      exact h⟩
  refine (load_of_allowed haccess).trans ?_
  simp [peek_byte, zeroByte]

theorem exec_lhu_of_allowed {s : State} {rd rs : RegNum} {imm : Imm16}
    (h : accessFault s .read (effAddr (readReg s rs) imm) .half = none) :
    exec (.lhu rd rs imm) s =
      .next (advance (writeReg s rd ((halfAt s (effAddr (readReg s rs) imm).toNat).setWidth 32))) := by
  refine (load_of_allowed h).trans ?_
  simp [peek_half, zeroHalf]

theorem readReg_advance_writeReg_same (s : State) (rd : RegNum) (v : Word) :
    readReg (advance (writeReg s rd v)) rd = if rd = 0#5 then 0#32 else v := by
  by_cases hz : rd = 0#5 <;> simp [hz]

/-- Settles O35: the word reads back whole, and each narrow load reads its part of it. -/
theorem narrowLoadSeesTheStoredWord : Obligations.NarrowLoadSeesTheStoredWord := by
  unfold Obligations.NarrowLoadSeesTheStoredWord
  rintro s t rb rs rb' rd off off' a lowest upper hwf rfl hsw hlowest hupper
  obtain ⟨haccess, ht⟩ := store_next hsw
  have haligned : (effAddr (readReg s rb) off).toNat % 4 = 0 := (accessFault_none_iff.1 haccess).1
  have hcfg : t.cfg = s.cfg := by rw [ht]; rfl
  have hword : wordAt t (effAddr (readReg s rb) off).toNat = readReg s rs := by rw [ht]; exact wordAt_poke hwf _ _
  have hparts : t.byteAt (effAddr (readReg s rb) off).toNat = lowest ∧
      halfAt t ((effAddr (readReg s rb) off).toNat + 2) = upper := by
    rw [hlowest, hupper, ← hword, ← hcfg]
    cases ho : t.cfg.byteOrder with
    | little => exact parts_of_wordAt_little ho _
    | big => exact parts_of_wordAt_big ho _
  obtain ⟨hbyte, hhalf⟩ := hparts
  rw [byteAt_toNat] at hbyte
  refine ⟨hbyte, hhalf, fun haddr hmap => ?_, fun haddr hmap2 hmap3 => ?_⟩
  · rw [← haddr] at hbyte hmap
    refine ⟨_, exec_lbu_of_allowed hmap, ?_⟩
    rw [readReg_advance_writeReg_same, hbyte]
  · have hhalfAccess : accessFault t .read (effAddr (readReg t rb') off') .half = none := by
      rw [accessFault_none_iff, haddr]
      refine ⟨by simp only [Size.bytes]; omega, fun i hi => ?_⟩
      obtain rfl | rfl : i = 0 ∨ i = 1 := by simp only [Size.bytes] at hi; omega
      · exact hmap2
      · exact hmap3
    refine ⟨_, exec_lhu_of_allowed hhalfAccess, ?_⟩
    rw [readReg_advance_writeReg_same, haddr, hhalf]

/-! ### Addresses and targets as integers modulo 2^32 (R7, R49, R162 to R164) -/

theorem toNat_eq_toInt_emod (w : Word) : (w.toNat : Int) = w.toInt % 2 ^ 32 := by
  have := w.isLt
  rw [BitVec.toInt_eq_toNat_cond]
  split <;> omega

theorem toNat_add_eq_emod (x y : Word) : ((x + y).toNat : Int) = ((x.toNat : Int) + y.toInt) % 2 ^ 32 := by
  rw [BitVec.toNat_add, Int.natCast_mod, Int.natCast_add, toNat_eq_toInt_emod y]
  simp

/-- Settles O30: sign extension keeps the offset's value, and addition of words is addition modulo 2^32. -/
theorem effectiveAddressIsBasePlusSignedOffset : Obligations.EffectiveAddressIsBasePlusSignedOffset := by
  unfold Obligations.EffectiveAddressIsBasePlusSignedOffset
  intro base imm
  rw [effAddr, toNat_add_eq_emod, BitVec.toInt_signExtend_of_le (by decide)]

/-- A word times 4 is, as an offset modulo 2^32, 4 times its signed value. -/
theorem toNat_add_mul_four (x y : Word) :
    ((x + y * 4#32).toNat : Int) = ((x.toNat : Int) + y.toInt * 4) % 2 ^ 32 := by
  have hy := toNat_eq_toInt_emod y
  rw [BitVec.toNat_add, BitVec.toNat_mul, BitVec.toNat_ofNat]
  omega

theorem toNat_branchTarget (s : State) (imm : Imm16) :
    ((branchTarget s imm).toNat : Int) = ((s.pc.toNat : Int) + imm.toInt * 4) % 2 ^ 32 := by
  rw [branchTarget, branchBase, toNat_add_mul_four, BitVec.toInt_signExtend_of_le (by decide)]

theorem toNat_jumpTarget (s : State) (imm : Imm26) :
    ((jumpTarget s imm).toNat : Int) = ((s.pc.toNat : Int) + imm.toInt * 4) % 2 ^ 32 := by
  rw [jumpTarget, branchBase, toNat_add_mul_four, BitVec.toInt_signExtend_of_le (by decide)]

theorem toNat_callTarget (imm : Imm26) : (callTarget imm).toNat = imm.toNat * 4 := by
  have := imm.isLt
  rw [callTarget, BitVec.toNat_mul, BitVec.toNat_setWidth]
  simp
  omega

/-- Settles O42: the reach of each is 4 times the range of its field. -/
theorem reachOfControlTransfers : Obligations.ReachOfControlTransfers := by
  unfold Obligations.ReachOfControlTransfers
  refine ⟨fun imm => ?_, fun s imm => ⟨imm.toInt * 4, ?_, ?_, ?_, toNat_jumpTarget s imm⟩,
    fun s imm => ⟨imm.toInt * 4, ?_, ?_, ?_, toNat_branchTarget s imm⟩⟩
  · have := imm.isLt
    rw [toNat_callTarget]
    omega
  all_goals
    have hlo := BitVec.le_toInt imm
    have hhi := BitVec.toInt_lt (x := imm)
    omega

/-! ### What directives lay down (R61, R219 to R222) -/

/-- Bytes laid down between others are read back where they lie. -/
theorem readBytes_writeBytes_mid {m : Memory} (h : m.wf = true) (a : Nat) (pre bs post : List Byte)
    (hl : (pre ++ (bs ++ post)).length ≤ 4294967296) :
    (m.writeBytes a (pre ++ (bs ++ post))).readBytes (a + pre.length) bs.length = bs := by
  apply List.ext_getElem
  · simp
  · intro i h1 h2
    have hi : pre.length + i < (pre ++ (bs ++ post)).length := by simp; omega
    rw [getElem_readBytes, Nat.add_assoc, read_writeBytes_inside h _ hl hi]
    simp [h2]

theorem read_writeBytes_getElem? {m : Memory} (h : m.wf = true) {a k : Nat} {bs : List Byte} {b : Byte}
    (hl : bs.length ≤ 4294967296) (hk : bs[k]? = some b) : (m.writeBytes a bs).read (wrapAddr (a + k)) = b := by
  obtain ⟨hlt, rfl⟩ := List.getElem?_eq_some_iff.1 hk
  exact read_writeBytes_inside h bs hl hlt

/-- The bytes of a `.word` (R221). -/
def wordListBytes (o : ByteOrder) (ws : List Nat) : List Byte := ws.flatMap fun w => toBytes o 4 (BitVec.ofNat 32 w)

/-- The bytes of a `.string` whose escapes are replaced (R222). -/
def stringBytes (xs : List Char) : List Byte := xs.map Config.charCode ++ [0#8]

theorem wordListBytes_split (o : ByteOrder) (pre post : List Nat) (w : Nat) :
    wordListBytes o (pre ++ w :: post) =
      wordListBytes o pre ++ (toBytes o 4 (BitVec.ofNat 32 w) ++ wordListBytes o post) := by
  simp [wordListBytes]

@[simp] theorem wordListBytes_length (o : ByteOrder) (ws : List Nat) : (wordListBytes o ws).length = 4 * ws.length := by
  simp [wordListBytes, List.length_flatMap, Nat.mul_comm]

@[simp] theorem stringBytes_length (xs : List Char) : (stringBytes xs).length = xs.length + 1 := by simp [stringBytes]

theorem getElem?_stringBytes_of_char {xs : List Char} {k : Nat} {c : Char} (h : xs[k]? = some c) :
    (stringBytes xs)[k]? = some (Config.charCode c) := by
  obtain ⟨hlt, rfl⟩ := List.getElem?_eq_some_iff.1 h
  simp [stringBytes, List.getElem?_append, hlt]

theorem getElem?_stringBytes_end (xs : List Char) : (stringBytes xs)[xs.length]? = some 0#8 := by simp [stringBytes]

section Laid
variable {o : ByteOrder} {m m' : Memory} {a next : Nat}

theorem layDirective_word {ws : List Nat} (h : layDirective o m a (.word ws) = some (m', next)) :
    (∀ w ∈ ws, w < 4294967296) ∧ m' = m.writeBytes a (wordListBytes o ws) ∧ next = (a + 4 * ws.length) % 2 ^ 32 := by
  obtain ⟨bs, hbytes, hr⟩ := layDirective_some h
  rw [directiveBytes] at hbytes
  split at hbytes
  · rename_i hfit
    cases hbytes
    cases hr
    exact ⟨by simpa using hfit, rfl, congrArg (fun n => (a + n) % 2 ^ 32) (wordListBytes_length o ws)⟩
  · cases hbytes

theorem layDirective_byte {vs : List Nat} (h : layDirective o m a (.byte vs) = some (m', next)) :
    (∀ v ∈ vs, v < 256) ∧ m' = m.writeBytes a (vs.map (BitVec.ofNat 8)) ∧ next = (a + vs.length) % 2 ^ 32 := by
  obtain ⟨bs, hbytes, hr⟩ := layDirective_some h
  rw [directiveBytes] at hbytes
  split at hbytes
  · rename_i hfit
    cases hbytes
    cases hr
    exact ⟨by simpa using hfit, rfl, congrArg (fun n => (a + n) % 2 ^ 32) (List.length_map _)⟩
  · cases hbytes

theorem layDirective_string {cs xs : List Char} (h : layDirective o m a (.string cs) = some (m', next))
    (hx : unescape cs = some xs) :
    m' = m.writeBytes a (stringBytes xs) ∧ next = (a + xs.length + 1) % 2 ^ 32 := by
  obtain ⟨bs, hbytes, hr⟩ := layDirective_some h
  rw [directiveBytes, hx] at hbytes
  cases hbytes
  cases hr
  exact ⟨rfl, congrArg (fun n => (a + n) % 2 ^ 32) (stringBytes_length xs)⟩

end Laid

/-- The k-th word of a `.word` is read back 4k above its start: the words before it take 4 bytes each (R221). -/
theorem fromBytes_readBytes_wordListBytes {m : Memory} (h : m.wf = true) (o : ByteOrder) (a : Nat) {ws : List Nat}
    {k w : Nat} (hl : 4 * ws.length ≤ 4294967296) (hk : ws[k]? = some w) :
    fromBytes o ((m.writeBytes a (wordListBytes o ws)).readBytes (a + 4 * k) 4) = BitVec.ofNat 32 w := by
  obtain ⟨hlt, hw⟩ := List.getElem?_eq_some_iff.1 hk
  obtain ⟨pre, post, rfl, rfl⟩ : ∃ pre post, ws = pre ++ w :: post ∧ pre.length = k :=
    ⟨ws.take k, ws.drop (k + 1), by simp [← hw], List.length_take_of_le hlt.le⟩
  rw [← wordListBytes_length o, wordListBytes_split] at hl
  have hread := readBytes_writeBytes_mid h a _ _ _ hl
  rw [wordListBytes_length, toBytes_length] at hread
  rw [wordListBytes_split, hread, fromBytes_toBytes_word]

/-- Settles O49: what each directive lays down is read back at its place. -/
theorem directivesLayDownTheirData : Obligations.DirectivesLayDownTheirData := by
  unfold Obligations.DirectivesLayDownTheirData
  intro s a ws bs cs xs m next hwf
  refine ⟨fun hlay hl => ?_, fun hlay hl => ?_, fun hlay hx hl => ?_⟩
  · obtain ⟨hfit, rfl, hnext⟩ := layDirective_word hlay
    refine ⟨hnext, fun k w hk => ?_⟩
    have hword := fromBytes_readBytes_wordListBytes hwf s.cfg.byteOrder a hl hk
    rw [← fromBytes_readBytes_word, hword, BitVec.toNat_ofNat]
    exact Nat.mod_eq_of_lt (hfit w (List.mem_of_getElem? hk))
  · obtain ⟨hfit, rfl, hnext⟩ := layDirective_byte hlay
    refine ⟨hnext, fun k b hk => ?_⟩
    have hk' : (bs.map (BitVec.ofNat 8))[k]? = some (BitVec.ofNat 8 b) := by simp [hk]
    have hread := read_writeBytes_getElem? hwf (a := a) (by simpa using hl) hk'
    refine (congrArg BitVec.toNat hread).trans ?_
    rw [BitVec.toNat_ofNat]
    exact Nat.mod_eq_of_lt (hfit b (List.mem_of_getElem? hk))
  · obtain ⟨rfl, hnext⟩ := layDirective_string hlay hx
    have hl' : (stringBytes xs).length ≤ 4294967296 := by rw [stringBytes_length]; exact hl
    exact ⟨hnext, read_writeBytes_getElem? hwf hl' (getElem?_stringBytes_end xs),
      fun k c hk => read_writeBytes_getElem? hwf hl' (getElem?_stringBytes_of_char hk)⟩

/-! ### Segments (R216) -/

theorem here_of_laidIn {a b : Assembly} {l : String} {m : Memory} {p : Nat} (h : LaidIn a b l m p) :
    b.here = some p := by
  rw [Assembly.here, h.current, h.place]

/-- What is laid down next in the segment goes on from there. -/
theorem laidIn_laid {a b : Assembly} {l : String} {m : Memory} {p : Nat} (h : LaidIn a b l m p) (r : Memory × Nat) :
    LaidIn a (b.laid r) l r.1 r.2 where
  mem := rfl
  current := h.current
  place := by simp [lookup_setPlace, h.current, h.place]
  others := fun l' hl' => by
    rw [laid_lookup_other b r (by rwa [h.current])]
    exact h.others l' hl'
  constants := h.constants
  labels := h.labels
  exported := h.exported

theorem laidIn_layInstrs {o : ByteOrder} {a b : Assembly} {l : String} {m : Memory} {p : Nat} (h : LaidIn a b l m p)
    (is : List Instr) :
    ∃ c, b.layInstrs o is = some c ∧ LaidIn a c l (layProgram o m p is) ((p + 4 * is.length) % 2 ^ 32) := by
  refine ⟨b.laid (layProgram o m p is, wrapAddr (p + 4 * is.length)), ?_, laidIn_laid h _⟩
  rw [Assembly.layInstrs, here_of_laidIn h, h.mem]
  rfl

theorem laidIn_layData {o : ByteOrder} {a b : Assembly} {l : String} {m : Memory} {p : Nat} (h : LaidIn a b l m p)
    {d : Directive} {bs : List Byte} (hd : directiveBytes o d = some bs) :
    ∃ c, b.layData o d = some c ∧
      LaidIn a c l (m.writeBytes p bs) ((p + bs.length + directiveReserves d) % 2 ^ 32) := by
  refine ⟨b.laid (m.writeBytes p bs, wrapAddr (p + bs.length + directiveReserves d)), ?_, laidIn_laid h _⟩
  rw [Assembly.layData, here_of_laidIn h, h.mem, Option.bind_some, layDirective, hd]
  rfl

theorem enter_of_place {a : Assembly} {l : String} {p : Nat} (h : a.places.lookup l = some p) :
    a.enter l = some { a with segment := l } := by
  rw [Assembly.enter, h]
  rfl

theorem laidIn_enter {a : Assembly} {l : String} {p : Nat} (h : a.places.lookup l = some p) :
    LaidIn a { a with segment := l } l a.mem p where
  mem := rfl
  current := rfl
  place := h
  others := fun _ _ => rfl
  constants := rfl
  labels := rfl
  exported := rfl

/-- Lines without a `.segment` stay in the current segment and move no other segment's address. -/
theorem layLines_stays {o : ByteOrder} {labels : List String} {a b : Assembly} {ls : List Line}
    (h : layLines o labels a ls = some b) (hs : ∀ l, Line.directive (.segment l) ∉ ls) :
    b.segment = a.segment ∧ ∀ l, l ≠ a.segment → b.places.lookup l = a.places.lookup l := by
  induction ls generalizing a with
  | nil =>
    cases h
    exact ⟨rfl, fun _ _ => rfl⟩
  | cons ln ls ih =>
    obtain ⟨a', hline, hrest⟩ := Option.bind_eq_some_iff.1 h
    obtain ⟨hseg, hplaces⟩ := layLine_stays hline fun l he => hs l (he ▸ List.mem_cons_self)
    obtain ⟨hseg', hplaces'⟩ := ih hrest fun l hl => hs l (List.mem_cons_of_mem _ hl)
    refine ⟨hseg'.trans hseg, fun l hl => ?_⟩
    rw [hplaces' l (by rwa [hseg]), hplaces l hl]

/-- Settles O52: entering the segment meets `LaidIn`, and each kind of line goes on from there. -/
theorem segmentsKeepTheirOwnAddresses : Obligations.SegmentsKeepTheirOwnAddresses := by
  unfold Obligations.SegmentsKeepTheirOwnAddresses
  intro o labels a l
  refine ⟨fun hnone => ?_, fun p hp => ?_⟩
  · simp [layLine, directiveOk, Assembly.direct, Assembly.enter, hnone]
  have hin := laidIn_enter hp
  refine ⟨_, enter_of_place hp, hin, fun m ops xs i hxs hi => ?_, fun m ops xs q hxs hq => ?_,
    fun n vs cs d hd bs hbs => ?_, fun ls c hls hc => ?_⟩
  · obtain ⟨c, hc, hlaid⟩ := laidIn_layInstrs (o := o) hin [i]
    refine ⟨c, ?_, hlaid⟩
    rw [layLine, hxs, Option.bind_some, hi, Option.bind_some, hc]
  · obtain ⟨c, hc, hlaid⟩ := laidIn_layInstrs (o := o) hin (expandPseudo q)
    refine ⟨c, ?_, hlaid⟩
    rw [layLine, hxs, Option.bind_some, hq, Option.bind_some, hc]
  · obtain ⟨c, hc, hlaid⟩ := laidIn_layData hin hbs
    refine ⟨c, ?_, hlaid⟩
    rw [← hc]
    fin_cases hd <;> rfl
  · exact layLines_stays hc hls
end Sys2Proof.Machine
end

section
/-! PROOFS of the family 30_encoding: the round trips (O2, O3), the opcode table's masks (O4), the unassigned opcodes (O5)
and nine fixed words (O1). -/

namespace Sys2Proof

/-! ### Decode of encode (R73, R74, R78, R82) -/

theorem decode_encode (i : Instr) : decode (encode i) = .ok i := by
  cases i
  case add | sub | mulu | mul | divu | div | sll | srl | and | or | nor | xor =>
    rw [encode, decode, fieldOpcode_packR3]
    exact decodeR3_packR3 ..
  case addi | subi | slli | srli | andi | ori | lb | lh | lw | lbu | lhu | sb | sh | sw | beq | bne | bge | bgeu | bgt
      | bgtu | ble | bleu | blt | bltu =>
    rw [encode, decode, fieldOpcode_packI]
    exact decodeI_packI ..
  case lui =>
    rw [encode, decode, fieldOpcode_packU]
    exact decodeU_packU ..
  case jr =>
    rw [encode, decode, fieldOpcode_packR1]
    exact decodeR1_packR1 ..
  case call | b =>
    rw [encode, decode, fieldOpcode_packJ]
    exact decodeJ_packJ ..
  case eret | halt =>
    rw [encode, decode, fieldOpcode_packN]
    exact decodeN_packN ..

/-- Settles O2: the word's fields are the instruction's, and its bytes are assembled to the word again. -/
theorem decodeOfEncodeIsTheInstruction : Obligations.DecodeOfEncodeIsTheInstruction := by
  unfold Obligations.DecodeOfEncodeIsTheInstruction
  intro i _
  refine ⟨decode_encode i, fun o => ?_⟩
  rw [encodeBytes, Machine.fromBytes_toBytes_word, decode_encode]

/-! ### A word is its fields packed again, where the reserved bits are 0 (R71, R73) -/

section Fields
variable {w : Word}

theorem toNat_div_mod_of_extract {lo n : Nat} (h : w.extractLsb' lo n = 0#n) : w.toNat / 2 ^ lo % 2 ^ n = 0 := by
  rw [← toNat_extract, h, BitVec.toNat_ofNat, Nat.zero_mod]

theorem packR3_fields (h : w.extractLsb' 0 11 = 0#11) :
    packR3 (fieldOpcode w) (fieldRd w) (fieldRs w) (fieldRt w) = w := by
  have hres := toNat_div_mod_of_extract h
  apply BitVec.eq_of_toNat_eq
  rw [toNat_packR3, toNat_fieldOpcode, toNat_fieldRd, toNat_fieldRs, toNat_fieldRt]
  omega

theorem packI_fields : packI (fieldOpcode w) (fieldRd w) (fieldRs w) (fieldImm16 w) = w := by
  apply BitVec.eq_of_toNat_eq
  rw [toNat_packI, toNat_fieldOpcode, toNat_fieldRd, toNat_fieldRs, toNat_fieldImm16]
  omega

theorem packU_fields (h : w.extractLsb' 16 5 = 0#5) : packU (fieldOpcode w) (fieldRd w) (fieldImm16 w) = w := by
  have hres := toNat_div_mod_of_extract h
  apply BitVec.eq_of_toNat_eq
  rw [toNat_packU, toNat_fieldOpcode, toNat_fieldRd, toNat_fieldImm16]
  omega

theorem packR1_fields (h : w.extractLsb' 0 21 = 0#21) : packR1 (fieldOpcode w) (fieldRd w) = w := by
  have hres := toNat_div_mod_of_extract h
  apply BitVec.eq_of_toNat_eq
  rw [toNat_packR1, toNat_fieldOpcode, toNat_fieldRd]
  omega

theorem packJ_fields : packJ (fieldOpcode w) (fieldImm26 w) = w := by
  apply BitVec.eq_of_toNat_eq
  rw [toNat_packJ, toNat_fieldOpcode, toNat_fieldImm26]
  omega

theorem packN_fields (h : w.extractLsb' 0 26 = 0#26) : packN (fieldOpcode w) = w := by
  have hres := toNat_div_mod_of_extract h
  apply BitVec.eq_of_toNat_eq
  rw [toNat_packN, toNat_fieldOpcode]
  omega

end Fields

/-! ### The opcode mask and the strict masks (R78, R79) -/

theorem and_opcodeMask (w : Word) : w &&& 0xFC000000#32 = packN (fieldOpcode w) := by
  have h := Laws.EncodeRow.mask_packJ (fieldOpcode w) (fieldImm26 w)
  rw [packJ_fields] at h
  exact h

theorem toNat_and_opcodeMask (w : Word) : (w &&& 0xFC000000#32).toNat / 2 ^ 26 = w.toNat / 2 ^ 26 := by
  rw [and_opcodeMask, toNat_packN, toNat_fieldOpcode]
  omega

theorem and_strictMask_and_opcodeMask (w : Word) (f : Format) :
    w &&& f.strictMask &&& 0xFC000000#32 = w &&& 0xFC000000#32 := by
  have hmask : f.strictMask &&& 0xFC000000#32 = 0xFC000000#32 := by cases f <;> rfl
  rw [BitVec.and_assoc, hmask]

theorem matchWord_and_opcodeMask (row : Instr) : row.matchWord &&& 0xFC000000#32 = row.matchWord := by
  cases row <;> (dsimp only [Instr.matchWord]; decide)

theorem and_opcodeMask_of_and_strictMask {w : Word} {row : Instr} (h : w &&& row.format.strictMask = row.matchWord) :
    w &&& 0xFC000000#32 = row.matchWord := by
  rw [← and_strictMask_and_opcodeMask w row.format, h, matchWord_and_opcodeMask]

theorem encode_and_strictMask (i : Instr) : encode i &&& i.format.strictMask = i.matchWord := by
  cases i
  case add | sub | mulu | mul | divu | div | sll | srl | and | or | nor | xor => exact Laws.EncodeRow.mask_packR3 ..
  case addi | subi | slli | srli | andi | ori | lb | lh | lw | lbu | lhu | sb | sh | sw | beq | bne | bge | bgeu | bgt
      | bgtu | ble | bleu | blt | bltu => exact Laws.EncodeRow.mask_packI ..
  case lui => exact Laws.EncodeRow.mask_packU ..
  case jr => exact Laws.EncodeRow.mask_packR1 ..
  case call | b => exact Laws.EncodeRow.mask_packJ ..
  case eret | halt => exact Laws.EncodeRow.mask_packN ..

theorem encode_and_opcodeMask (i : Instr) : encode i &&& 0xFC000000#32 = i.matchWord :=
  and_opcodeMask_of_and_strictMask (encode_and_strictMask i)

/-- A row's match word tells its format: the decoder reads it. -/
theorem format_eq_of_matchWord_eq {i row : Instr} (h : i.matchWord = row.matchWord) : i.format = row.format := by
  have hdecode : ∀ j : Instr, (decode j.matchWord).map Instr.format = .ok j.format := by
    intro j
    cases j <;> (dsimp only [Instr.matchWord, Instr.format]; decide)
  have hi := hdecode i
  rw [h, hdecode row] at hi
  exact (Except.ok.inj hi).symm

theorem matchWord_opcode_assigned (row : Instr) : row.matchWord.toNat / 2 ^ 26 ∉ unassignedOpcodes := by
  cases row <;> (dsimp only [Instr.matchWord]; decide)

theorem opcode_assigned {w : Word} {row : Instr} (h : w &&& 0xFC000000#32 = row.matchWord) :
    w.toNat / 2 ^ 26 ∉ unassignedOpcodes := by
  rw [← toNat_and_opcodeMask, h]
  exact matchWord_opcode_assigned row

/-! ### What the decoder can answer (R79, R80, R82) -/

/-- What each answer of the decoder says of the word. -/
inductive Decoded (w : Word) : Except DecodeError Instr → Prop
  /-- the word is the instruction's own -/
  | ok {i : Instr} (hword : encode i = w) : Decoded w (.ok i)
  /-- the word has the opcode of a row and a reserved bit of its format is 1 -/
  | reserved {row : Instr} (hopcode : w &&& 0xFC000000#32 = row.matchWord)
      (hbits : w &&& row.format.strictMask ≠ row.matchWord) : Decoded w (.error .reservedBitsNonzero)
  /-- no row has the word's opcode -/
  | illegal (hopcode : w.toNat / 2 ^ 26 ∈ unassignedOpcodes) : Decoded w (.error .illegalOpcode)

/-- Where a mask holds all of a field below the opcode and the masked word is bare opcode, the word's field is 0. -/
theorem extract_eq_zero_of_and {w m : Word} {op : BitVec 6} {lo n : Nat} (hlo : lo + n ≤ 26)
    (hm : m.extractLsb' lo n = BitVec.allOnes n) (h : w &&& m = packN op) : w.extractLsb' lo n = 0#n := by
  have hbare : (packN op).extractLsb' lo n = 0#n := by
    rw [packN, BitVec.extractLsb'_append_eq_of_add_le hlo, BitVec.extractLsb'_zero]
  rw [← hbare, ← h, BitVec.extractLsb'_and, hm, BitVec.and_allOnes]

/-- The test of a format's reserved bits, for an instruction that has the word's opcode. -/
theorem decoded_of_reserved {w : Word} {i : Instr} {f : Format} {lo n : Nat}
    (hopcode : fieldOpcode (encode i) = fieldOpcode w) (hfmt : i.format = f) (hlo : lo + n ≤ 26)
    (hmask : f.strictMask.extractLsb' lo n = BitVec.allOnes n) (hword : w.extractLsb' lo n = 0#n → encode i = w) :
    Decoded w (if w.extractLsb' lo n = 0#n then .ok i else .error .reservedBitsNonzero) := by
  have hmatch : i.matchWord = packN (fieldOpcode w) := by
    rw [← encode_and_opcodeMask, and_opcodeMask, hopcode]
  split
  · exact .ok (hword ‹_›)
  · refine .reserved ((and_opcodeMask w).trans hmatch.symm) fun hbits => ?_
    rw [hfmt] at hbits
    exact absurd (extract_eq_zero_of_and hlo hmask (hbits.trans hmatch)) ‹_›

section Formats
variable {w : Word} {n : Nat} (hn : (fieldOpcode w).toNat = n)
include hn

theorem ofNat_opcode : BitVec.ofNat 6 n = fieldOpcode w := by
  rw [← hn, BitVec.ofNat_toNat, BitVec.setWidth_eq]

theorem decoded_decodeR3 {make : RegNum → RegNum → RegNum → Instr}
    (hmake : ∀ d s t, encode (make d s t) = packR3 (BitVec.ofNat 6 n) d s t ∧ (make d s t).format = .R3) :
    Decoded w (decodeR3 w make) := by
  obtain ⟨henc, hfmt⟩ := hmake (fieldRd w) (fieldRs w) (fieldRt w)
  rw [ofNat_opcode hn] at henc
  exact decoded_of_reserved (by rw [henc, fieldOpcode_packR3]) hfmt (by decide) rfl fun h => henc.trans (packR3_fields h)

theorem decoded_decodeI {make : RegNum → RegNum → Imm16 → Instr}
    (hmake : ∀ d s c, encode (make d s c) = packI (BitVec.ofNat 6 n) d s c) : Decoded w (decodeI w make) := by
  have henc := hmake (fieldRd w) (fieldRs w) (fieldImm16 w)
  rw [ofNat_opcode hn, packI_fields] at henc
  exact .ok henc

theorem decoded_decodeU {make : RegNum → Imm16 → Instr}
    (hmake : ∀ d c, encode (make d c) = packU (BitVec.ofNat 6 n) d c ∧ (make d c).format = .U) :
    Decoded w (decodeU w make) := by
  obtain ⟨henc, hfmt⟩ := hmake (fieldRd w) (fieldImm16 w)
  rw [ofNat_opcode hn] at henc
  exact decoded_of_reserved (by rw [henc, fieldOpcode_packU]) hfmt (by decide) rfl fun h => henc.trans (packU_fields h)

theorem decoded_decodeR1 {make : RegNum → Instr}
    (hmake : ∀ d, encode (make d) = packR1 (BitVec.ofNat 6 n) d ∧ (make d).format = .R1) :
    Decoded w (decodeR1 w make) := by
  obtain ⟨henc, hfmt⟩ := hmake (fieldRd w)
  rw [ofNat_opcode hn] at henc
  exact decoded_of_reserved (by rw [henc, fieldOpcode_packR1]) hfmt (by decide) rfl fun h => henc.trans (packR1_fields h)

theorem decoded_decodeJ {make : Imm26 → Instr} (hmake : ∀ c, encode (make c) = packJ (BitVec.ofNat 6 n) c) :
    Decoded w (decodeJ w make) := by
  have henc := hmake (fieldImm26 w)
  rw [ofNat_opcode hn, packJ_fields] at henc
  exact .ok henc

theorem decoded_decodeN {i : Instr} (hi : encode i = packN (BitVec.ofNat 6 n) ∧ i.format = .N) :
    Decoded w (decodeN w i) := by
  obtain ⟨henc, hfmt⟩ := hi
  rw [ofNat_opcode hn] at henc
  exact decoded_of_reserved (by rw [henc, fieldOpcode_packN]) hfmt (by decide) rfl fun h => henc.trans (packN_fields h)

end Formats

/-- The decoder's arms in their order: 42 rows, each as its format decodes, then the opcodes of no row. -/
theorem decoded_decode (w : Word) : Decoded w (decode w) := by
  unfold decode
  split
  -- format R3: opcodes 0x00 to 0x05 and 0x07 to 0x0C
  case h_1 hop | h_2 hop | h_3 hop | h_4 hop | h_5 hop | h_6 hop | h_8 hop | h_9 hop | h_10 hop | h_11 hop | h_12 hop
      | h_13 hop =>
    exact decoded_decodeR3 hop fun _ _ _ => ⟨rfl, rfl⟩
  case h_7 hop => exact decoded_decodeU hop fun _ _ => ⟨rfl, rfl⟩ -- LUI
  case h_23 hop => exact decoded_decodeR1 hop fun _ => ⟨rfl, rfl⟩ -- JR
  case h_22 hop | h_30 hop => exact decoded_decodeJ hop fun _ => rfl -- B, CALL
  case h_41 hop | h_42 hop => exact decoded_decodeN hop ⟨rfl, rfl⟩ -- ERET, HALT
  case h_43 => -- no arm matched
    refine .illegal ?_
    have hlt := (fieldOpcode w).isLt
    simp only [unassignedOpcodes, List.mem_cons, List.not_mem_nil, or_false, imp_false, toNat_fieldOpcode] at *
    omega
  all_goals exact decoded_decodeI ‹_› fun _ _ _ => rfl -- every other arm is of format I

theorem encode_of_decode {w : Word} {i : Instr} (h : decode w = .ok i) : encode i = w := by
  have hdecoded := decoded_decode w
  rw [h] at hdecoded
  obtain ⟨hword⟩ := hdecoded
  exact hword

/-- The two round trips together. -/
theorem decode_eq_ok_iff {w : Word} {i : Instr} : decode w = .ok i ↔ encode i = w :=
  ⟨encode_of_decode, fun h => h ▸ decode_encode i⟩

/-- Settles O3: an `ok` of the decoder says the word is the instruction's, and an instruction's own operands fit. -/
theorem encodeOfDecodeIsTheWord : Obligations.EncodeOfDecodeIsTheWord := by
  unfold Obligations.EncodeOfDecodeIsTheWord
  exact fun w i h => ⟨encode_of_decode h, Machine.wellFormed_eq_true i⟩

/-- A word with a row's opcode is of the row or has a reserved bit of its format set. -/
theorem decode_of_opcode {w : Word} {row : Instr} (h : w &&& 0xFC000000#32 = row.matchWord) :
    (∃ i, decode w = .ok i ∧ i.matchWord = row.matchWord ∧ w &&& row.format.strictMask = row.matchWord) ∨
    (decode w = .error .reservedBitsNonzero ∧ w &&& row.format.strictMask ≠ row.matchWord) := by
  have hdecoded := decoded_decode w
  generalize decode w = answer at hdecoded
  cases hdecoded with
  | @ok i hword =>
    have hmatch : i.matchWord = row.matchWord := by rw [← encode_and_opcodeMask, hword, h]
    have hstrict := encode_and_strictMask i
    rw [hword, format_eq_of_matchWord_eq hmatch, hmatch] at hstrict
    exact .inl ⟨i, rfl, hmatch, hstrict⟩
  | @reserved r hopcode hbits =>
    have hmatch : r.matchWord = row.matchWord := hopcode.symm.trans h
    rw [format_eq_of_matchWord_eq hmatch, hmatch] at hbits
    exact .inr ⟨rfl, hbits⟩
  | illegal hopcode => exact absurd hopcode (opcode_assigned h)

/-- Settles O4: the strict mask holds the opcode mask, so either side gives the word the row's opcode. -/
theorem strictMaskDecidesTheRow : Obligations.StrictMaskDecidesTheRow := by
  unfold Obligations.StrictMaskDecidesTheRow
  refine fun w row => ⟨⟨?_, fun hstrict => ?_⟩, fun hopcode hbits => ?_⟩
  · rintro ⟨i, hok, hmatch⟩
    rw [← encode_of_decode hok, ← format_eq_of_matchWord_eq hmatch, encode_and_strictMask, hmatch]
  · obtain ⟨i, hok, hmatch, -⟩ | ⟨-, hbits⟩ := decode_of_opcode (and_opcodeMask_of_and_strictMask hstrict)
    · exact ⟨i, hok, hmatch⟩
    · exact absurd hstrict hbits
  · obtain ⟨-, -, -, hstrict⟩ | ⟨hreserved, -⟩ := decode_of_opcode hopcode
    · exact absurd hstrict hbits
    · exact hreserved

/-- Settles O5: the other two answers give the word a row's opcode, and no row has one of the 22. -/
theorem unassignedOpcodesAreIllegal : Obligations.UnassignedOpcodesAreIllegal := by
  unfold Obligations.UnassignedOpcodesAreIllegal
  intro w
  have hdecoded := decoded_decode w
  generalize decode w = answer at hdecoded
  cases hdecoded with
  | @ok i hword =>
    have hopcode : w &&& 0xFC000000#32 = i.matchWord := hword ▸ encode_and_opcodeMask i
    exact ⟨nofun, fun h => absurd h (opcode_assigned hopcode)⟩
  | reserved hopcode _ => exact ⟨nofun, fun h => absurd h (opcode_assigned hopcode)⟩
  | illegal hopcode => exact ⟨fun _ => hopcode, fun _ => rfl⟩

/-- Settles O1: each word is the instruction's own (R73, R78), so the round trips decode it. -/
theorem specWordsDecode : Obligations.SpecWordsDecode := by
  unfold Obligations.SpecWordsDecode
  simp only [decode_eq_ok_iff]
  decide

end Sys2Proof
end

section
/-! PROOFS of the family 40_arithmetic: ADD, ADDI, SUB, SUBI (O22), the products (O23), the divisions (O24, O25), the two
named roundings (O26) and the identities of R111 (O27). -/

namespace Sys2Proof.Machine

/-! ### Words of formats R3 and I as numbers (R74) -/

theorem toNat_packR3_eq_numberR3 (op : BitVec 6) (d s t : RegNum) :
    (packR3 op d s t).toNat = numberR3 op.toNat d s t := toNat_packR3 op d s t

theorem toNat_packI_eq_numberI (op : BitVec 6) (d s : RegNum) (imm : Imm16) :
    (packI op d s imm).toNat = numberI op.toNat d s imm := toNat_packI op d s imm

/-! ### The two endings complete, with their frames (R26, R104) -/

/-- The ending in one register completes with any value that meets P. -/
theorem finish_completes (s : State) (rd : RegNum) {v : Word} {P : Word → Prop} (h : P v) :
    ∃ t w, finish s rd v = .next t ∧ WritesReg s t rd w ∧ AtNext s t ∧ P w :=
  ⟨_, v, rfl, writesReg_advance_writeReg s rd v, atNext_advance_writeReg s rd v, h⟩

theorem writesPair_advance_writePair (s : State) (rd : RegNum) (lo hi : Word) :
    WritesPair s (advance (writePair s rd lo hi)) rd lo hi where
  zero := readReg_zero _
  low := fun hne => by simp [readReg_writePair, hne]
  high := fun hne => by simp [readReg_writePair, hne]
  others := fun r hr hnext => by
    have hhi : ¬(rd ≠ 31#5 ∧ r = rd + 1#5) := fun ⟨h31, h⟩ => hnext h31 h
    simp [readReg_writePair, hhi, hr]
  rest := ⟨fun _ => by simp, by simp, by simp, by simp, by simp, by simp⟩

/-- The ending in a pair of registers completes with any values that meet P. -/
theorem finishPair_completes (s : State) (rd : RegNum) {lo hi : Word} {P : Word → Word → Prop} (h : P lo hi) :
    ∃ t x y, finishPair s rd lo hi = .next t ∧ WritesPair s t rd x y ∧ AtNext s t ∧ P x y :=
  ⟨_, lo, hi, rfl, writesPair_advance_writePair s rd lo hi, atNext_of_pc (by simp), h⟩

theorem readReg_of_finishPair {s t : State} {rd : RegNum} {lo hi : Word} (h : finishPair s rd lo hi = .next t) :
    readReg t rd = if rd = 0#5 then 0#32 else lo := by
  obtain rfl : advance (writePair s rd lo hi) = t := by simpa [finishPair] using h
  by_cases hz : rd = 0#5
  · simp [hz]
  · simp [readReg_writePair, hz]

/-! ### Sums and differences (R100 to R103) -/

/-- The signed sum, where 32 bits hold it. -/
theorem toInt_add_of_inRange {x y : Word} (hlo : -2 ^ 31 ≤ x.toInt + y.toInt) (hhi : x.toInt + y.toInt ≤ 2 ^ 31 - 1) :
    (x + y).toInt = x.toInt + y.toInt := by
  rw [BitVec.toInt_add]
  exact Int.bmod_eq_of_le (by omega) (by omega)

theorem toNat_sub_eq_emod (x y : Word) : ((x - y).toNat : Int) = (x.toNat - y.toNat : Int) % 2 ^ 32 := by
  have hx := x.isLt
  have hy := y.isLt
  rw [BitVec.toNat_sub]
  omega

@[simp] theorem toNat_constOperand (imm : Imm16) : (constOperand imm).toNat = imm.toNat :=
  BitVec.toNat_setWidth_of_le (by decide)

/-- Settles O22: each ends in `finish` with the sum or difference of words. -/
theorem addAndSubtract : Obligations.AddAndSubtract := by
  unfold Obligations.AddAndSubtract
  intro s rd rs rt imm
  refine ⟨⟨toNat_packR3_eq_numberR3 0b000000#6 rd rs rt, finish_completes s rd ⟨BitVec.toNat_add .., ?_⟩⟩,
    ⟨toNat_packI_eq_numberI 0b100000#6 rd rs imm, finish_completes s rd ?_⟩,
    ⟨toNat_packR3_eq_numberR3 0b000001#6 rd rs rt, finish_completes s rd (toNat_sub_eq_emod _ _)⟩,
    ⟨toNat_packI_eq_numberI 0b100001#6 rd rs imm, finish_completes s rd ?_⟩⟩
  · exact toInt_add_of_inRange
  · rw [BitVec.toNat_add, toNat_constOperand]
  · rw [toNat_sub_eq_emod, toNat_constOperand]

/-! ### Products (R105, R106) -/

theorem toNat_unsignedProduct (a b : Word) : (unsignedProduct a b).toNat = a.toNat * b.toNat := by
  have hlt : a.toNat * b.toNat < 2 ^ 32 * 2 ^ 32 := Nat.mul_lt_mul'' a.isLt b.isLt
  exact Nat.mod_eq_of_lt hlt

theorem toInt_signedProduct (a b : Word) : (signedProduct a b).toInt = a.toInt * b.toInt := by
  have hlo : -2 ^ 62 ≤ a.toInt * b.toInt := BitVec.le_toInt_mul_toInt
  have hhi : a.toInt * b.toInt ≤ 2 ^ 62 := BitVec.toInt_mul_toInt_le
  exact BitVec.toInt_ofInt_eq_self (by decide) (by omega) (by omega)

/-- HI and LO put together are the unsigned product (R8). -/
theorem productHi_productLo_toNat (p : BitVec 64) :
    (productHi p).toNat * 2 ^ 32 + (productLo p).toNat = p.toNat := by
  have := p.isLt
  simp only [productHi, productLo, BitVec.extractLsb'_toNat, Nat.shiftRight_eq_div_pow]
  omega

/-- HI and LO put together are the signed product: HI carries the sign. -/
theorem productHi_productLo_toInt (p : BitVec 64) :
    (productHi p).toInt * 2 ^ 32 + (productLo p).toNat = p.toInt := by
  have hnat := productHi_productLo_toNat p
  have hlo := (productLo p).isLt
  rw [BitVec.toInt_eq_toNat_cond, BitVec.toInt_eq_toNat_cond]
  omega

/-! The low half is the product of the two words, whichever way they are read. -/

theorem productLo_unsignedProduct (a b : Word) : productLo (unsignedProduct a b) = a * b := by
  apply BitVec.eq_of_toNat_eq
  rw [productLo, BitVec.extractLsb'_toNat, toNat_unsignedProduct, Nat.shiftRight_zero, BitVec.toNat_mul]

theorem productLo_signedProduct (a b : Word) : productLo (signedProduct a b) = a * b := by
  have hmul : a * b = BitVec.ofInt 32 (a.toInt * b.toInt) := by
    rw [BitVec.ofInt_mul, BitVec.ofInt_toInt, BitVec.ofInt_toInt]
  rw [hmul, productLo, signedProduct]
  apply BitVec.eq_of_toNat_eq
  rw [BitVec.extractLsb'_toNat, BitVec.toNat_ofInt, BitVec.toNat_ofInt, Nat.shiftRight_zero]
  omega

/-- Settles O23: both end in `finishPair` with the halves of the exact product, and their low halves are equal. -/
theorem multiply : Obligations.Multiply := by
  unfold Obligations.Multiply
  intro s rd rs rt
  refine ⟨⟨toNat_packR3_eq_numberR3 0b000010#6 rd rs rt, finishPair_completes s rd ?_⟩,
    ⟨toNat_packR3_eq_numberR3 0b000011#6 rd rs rt, finishPair_completes s rd ?_⟩, fun t u ht hu => ?_⟩
  · rw [productHi_productLo_toNat, toNat_unsignedProduct]
  · rw [productHi_productLo_toInt, toInt_signedProduct]
  · rw [readReg_of_finishPair ht, readReg_of_finishPair hu, productLo_unsignedProduct, productLo_signedProduct]

/-! ### Unsigned division (R107, R110) -/

theorem exec_divu (s : State) (rd rs rt : RegNum) :
    exec (.divu rd rs rt) s = finishDivision s rd (divideUnsigned (readReg s rs) (readReg s rt)) := rfl

theorem divideUnsigned_of_ne_zero {a b : Word} (h : b ≠ 0#32) : divideUnsigned a b = .ok (a / b, a % b) := by
  rw [divideUnsigned, if_neg h, BitVec.udiv_def, BitVec.umod_def]

/-- Settles O24: quotient and remainder are those of the words as numbers. (`divideUnsigned` is the model's function.) -/
theorem divideUnsigned_holds : Obligations.DivideUnsigned := by
  unfold Obligations.DivideUnsigned
  intro s rd rs rt
  refine ⟨toNat_packR3_eq_numberR3 0b000100#6 rd rs rt, fun hne => ?_, fun hzero => ?_⟩
  · have hpos : 0 < (readReg s rt).toNat := Nat.pos_of_ne_zero fun h => hne (BitVec.eq_of_toNat_eq h)
    rw [exec_divu, divideUnsigned_of_ne_zero hne]
    exact finishPair_completes s rd ⟨Nat.div_add_mod' .., Nat.mod_lt _ hpos⟩
  · rw [exec_divu, hzero]
    rfl

/-! ### Signed division, case by case (R108 to R110) -/

section Signed
variable {f : Int → Int → Int × Int} {a b : Word}

theorem eq_zero_iff_toInt : b = 0#32 ↔ b.toInt = 0 := by
  rw [← BitVec.toInt_inj, BitVec.toInt_zero]

theorem divideSignedWith_by_zero (h : b.toInt = 0) : divideSignedWith f a b = .error .divideByZero :=
  if_pos (eq_zero_iff_toInt.2 h)

theorem divideSignedWith_overflow (ha : a.toInt = -2 ^ 31) (hb : b.toInt = -1) :
    divideSignedWith f a b = .error .divideOverflow := by
  have hne : b ≠ 0#32 := by rw [Ne, eq_zero_iff_toInt]; omega
  rw [divideSignedWith, if_neg hne, if_pos ⟨ha, hb⟩]

/-- Where neither operand is negative, the signed division is the plain one, whatever the rounding. -/
theorem divideSignedWith_plain (ha : 0 ≤ a.toInt) (hb : 0 < b.toInt) :
    divideSignedWith f a b = .ok (a / b, a % b) := by
  have hne : b ≠ 0#32 := by rw [Ne, eq_zero_iff_toInt]; omega
  rw [divideSignedWith, if_neg hne, if_neg (by omega), if_pos ⟨ha, hb⟩, BitVec.udiv_def, BitVec.umod_def]

theorem divideSignedWith_rounded (hb : b.toInt ≠ 0) (hover : ¬(a.toInt = -2 ^ 31 ∧ b.toInt = -1))
    (hneg : a.toInt < 0 ∨ b.toInt < 0) :
    divideSignedWith f a b =
      .ok (BitVec.ofInt 32 (f a.toInt b.toInt).1, BitVec.ofInt 32 (f a.toInt b.toInt).2) := by
  have hne : b ≠ 0#32 := by rwa [Ne, eq_zero_iff_toInt]
  exact (if_neg hne).trans ((if_neg hover).trans (if_neg (by omega)))

/-- Words that are not negative divide as their signed values do. -/
theorem toInt_udiv_umod_of_nonneg (ha : 0 ≤ a.toInt) (hb : 0 ≤ b.toInt) :
    (a / b).toInt = a.toInt / b.toInt ∧ (a % b).toInt = a.toInt % b.toInt := by
  have hma : a.msb = false := by rw [BitVec.msb_eq_toInt]; simpa using ha
  have hmb : b.msb = false := by rw [BitVec.msb_eq_toInt]; simpa using hb
  rw [BitVec.toInt_udiv_of_msb hma, BitVec.toInt_umod_of_msb hma, BitVec.toInt_eq_toNat_of_msb hma,
    BitVec.toInt_eq_toNat_of_msb hmb]
  exact ⟨rfl, rfl⟩

end Signed

theorem exec_div (s : State) (rd rs rt : RegNum) :
    exec (.div rd rs rt) s =
      finishDivision s rd (divideSignedWith Config.sdivRounding (readReg s rs) (readReg s rt)) := rfl

theorem toNat_ofInt_eq_emod (k : Int) : ((BitVec.ofInt 32 k).toNat : Int) = k % 2 ^ 32 := by
  rw [BitVec.toNat_ofInt]
  omega

/-- Settles O25: the two faults, and otherwise the pair of the plain division or of the open rounding. (`divideSigned` is
the model's function.) -/
theorem divideSigned_holds : Obligations.DivideSigned := by
  unfold Obligations.DivideSigned
  intro s rd rs rt
  rw [exec_div]
  refine ⟨toNat_packR3_eq_numberR3 0b000101#6 rd rs rt, fun hzero => ?_, fun hrs hrt => ?_, fun hne hover => ?_⟩
  · rw [divideSignedWith_by_zero hzero]
    rfl
  · rw [divideSignedWith_overflow hrs hrt]
    rfl
  by_cases hneg : (readReg s rs).toInt < 0 ∨ (readReg s rt).toInt < 0
  · rw [divideSignedWith_rounded hne hover hneg]
    refine finishPair_completes s rd ⟨fun hrs hrt => ?_, fun _ => ⟨toNat_ofInt_eq_emod _, toNat_ofInt_eq_emod _⟩⟩
    omega -- the signs contradict hneg
  · have hrs : 0 ≤ (readReg s rs).toInt := by omega
    have hrt : 0 < (readReg s rt).toInt := by omega
    obtain ⟨hquot, hrem⟩ := toInt_udiv_umod_of_nonneg hrs hrt.le
    rw [divideSignedWith_plain hrs hrt]
    refine finishPair_completes s rd ⟨fun _ _ => ?_, fun h => absurd h hneg⟩
    rw [hquot, hrem]
    exact ⟨Int.ediv_mul_add_emod .., Int.emod_nonneg _ hne, Int.emod_lt_of_pos _ hrt⟩

/-! ### The two named roundings as integer divisions (R109) -/

/-- Toward zero is the division `tdiv`. -/
theorem eq_tdiv_tmod_of_sdivTruncates {f : Int → Int → Int × Int} (hf : SdivTruncates f) {a b : Int} (hb : b ≠ 0)
    (hover : ¬(a = -2 ^ 31 ∧ b = -1)) : f a b = (a.tdiv b, a.tmod b) := by
  have hquot : a.sign * b.sign * ((a.natAbs / b.natAbs : Nat) : Int) = a.tdiv b := by
    rw [← Int.sign_mul_natAbs (a.tdiv b), Int.sign_tdiv, Int.natAbs_tdiv]
    split
    · rw [Nat.div_eq_of_lt ‹_›]; simp
    · rfl
  have hrem := Int.tdiv_mul_add_tmod a b
  rw [hf a b hb hover, hquot]
  congr 1
  omega

/-- Toward minus infinity is the division `fdiv`. -/
theorem eq_fdiv_fmod_of_sdivFloors {g : Int → Int → Int × Int} (hg : SdivFloors g) {a b : Int} (hb : b ≠ 0)
    (hover : ¬(a = -2 ^ 31 ∧ b = -1)) : g a b = (a.fdiv b, a.fmod b) := by
  have hrem := Int.fdiv_mul_add_fmod a b
  rw [hg a b hb hover]
  congr 1
  omega

section Candidates
variable {a b : Int}

theorem natAbs_tmod_lt (hb : b ≠ 0) : (a.tmod b).natAbs < b.natAbs := by
  rw [Int.natAbs_tmod]
  exact Nat.mod_lt _ (Int.natAbs_pos.2 hb)

theorem tmod_eq_zero_or_sign : a.tmod b = 0 ∨ (a.tmod b).sign = a.sign := by
  by_cases h : b ∣ a
  · exact .inl (Int.tmod_eq_zero_of_dvd h)
  · exact .inr (by rw [Int.sign_tmod, if_neg h])

/-- The floor's remainder lies between 0 and the divisor. -/
theorem fmod_between (hb : b ≠ 0) : (0 ≤ a.fmod b ∧ a.fmod b < b) ∨ (b < a.fmod b ∧ a.fmod b ≤ 0) := by
  obtain hneg | hpos := Int.lt_or_gt_of_ne hb
  · have hnonneg := Int.fmod_nonneg_of_pos (-a) (Int.neg_pos.2 hneg)
    have hlt := Int.fmod_lt_of_pos (-a) (Int.neg_pos.2 hneg)
    rw [Int.neg_fmod_neg] at hnonneg hlt
    omega
  · exact .inl ⟨Int.fmod_nonneg_of_pos a hpos, Int.fmod_lt_of_pos a hpos⟩

theorem natAbs_fmod_lt (hb : b ≠ 0) : (a.fmod b).natAbs < b.natAbs := by
  have := fmod_between (a := a) hb
  omega

theorem fmod_eq_zero_or_sign (hb : b ≠ 0) : a.fmod b = 0 ∨ (a.fmod b).sign = b.sign := by
  rw [or_iff_not_imp_left]
  intro hne
  obtain ⟨h0, hlt⟩ | ⟨hlt, h0⟩ := fmod_between (a := a) hb
  · rw [Int.sign_eq_one_of_pos (by omega), Int.sign_eq_one_of_pos (by omega)]
  · rw [Int.sign_eq_neg_one_of_neg (by omega), Int.sign_eq_neg_one_of_neg (by omega)]

/-- The roundings agree where nothing is rounded, and where the quotient is not negative. -/
theorem tdiv_eq_fdiv_of_dvd_or_sign_eq (h : b ∣ a ∨ a.sign = b.sign) : a.tdiv b = a.fdiv b := by
  obtain hdvd | hsign := h
  · rw [Int.tdiv_eq_ediv_of_dvd hdvd, Int.fdiv_eq_ediv_of_dvd hdvd]
  · obtain ha | ha := lt_or_ge a 0
    · have hb : b < 0 := by rwa [← Int.sign_neg_iff, ← hsign, Int.sign_neg_iff]
      rw [← Int.neg_tdiv_neg, ← Int.neg_fdiv_neg, Int.fdiv_eq_tdiv_of_nonneg (by omega) (by omega)]
    · have hb : 0 ≤ b := by rwa [← Int.sign_nonneg_iff, ← hsign, Int.sign_nonneg_iff]
      rw [Int.fdiv_eq_tdiv_of_nonneg ha hb]

/-- The quotient of two 32-bit operands fits in 32 bits, however it is rounded, save for -2^31 by -1. -/
theorem quotient_inRange {q r : Int} (ha : -2 ^ 31 ≤ a ∧ a < 2 ^ 31) (hover : ¬(a = -2 ^ 31 ∧ b = -1))
    (hid : q * b + r = a) (hlt : r.natAbs < b.natAbs) : -2 ^ 31 ≤ q ∧ q < 2 ^ 31 := by
  by_cases hq : q.natAbs < 2 ^ 31
  · omega
  have hunit : b.natAbs = 1 := by
    have hmul : 2 ^ 31 * b.natAbs ≤ (q * b).natAbs := by
      rw [Int.natAbs_mul]
      exact Nat.mul_le_mul_right _ (not_lt.1 hq)
    omega
  obtain rfl | rfl := Int.natAbs_eq_iff.1 hunit <;> omega

end Candidates

/-- A rounding that satisfies the division identity, and is the plain division where no operand is negative, comes out
of DIV as it is: 32 bits hold both results. -/
theorem divideSignedWith_of_identity {f : Int → Int → Int × Int} {a b : Word} {q r : Int} (hb : b.toInt ≠ 0)
    (hover : ¬(a.toInt = -2 ^ 31 ∧ b.toInt = -1)) (hf : f a.toInt b.toInt = (q, r))
    (hid : q * b.toInt + r = a.toInt) (hlt : r.natAbs < b.toInt.natAbs)
    (hplain : 0 ≤ a.toInt → 0 ≤ b.toInt → q = a.toInt / b.toInt) :
    ∃ x y, divideSignedWith f a b = .ok (x, y) ∧ x.toInt = q ∧ y.toInt = r := by
  by_cases hneg : a.toInt < 0 ∨ b.toInt < 0
  · obtain ⟨hqlo, hqhi⟩ := quotient_inRange ⟨BitVec.le_toInt a, BitVec.toInt_lt⟩ hover hid hlt
    have hblo : -2 ^ 31 ≤ b.toInt := BitVec.le_toInt b
    have hbhi : b.toInt < 2 ^ 31 := BitVec.toInt_lt
    refine ⟨_, _, divideSignedWith_rounded hb hover hneg, ?_, ?_⟩
    · rw [hf]
      exact BitVec.toInt_ofInt_eq_self (by decide) hqlo hqhi
    · rw [hf]
      exact BitVec.toInt_ofInt_eq_self (by decide) (by omega) (by omega)
  · have ha : 0 ≤ a.toInt := by omega
    have hpos : 0 < b.toInt := by omega
    obtain ⟨hquot, hrem⟩ := toInt_udiv_umod_of_nonneg ha hpos.le
    refine ⟨_, _, divideSignedWith_plain ha hpos, by rw [hquot, hplain ha hpos.le], ?_⟩
    have hmod := Int.ediv_mul_add_emod a.toInt b.toInt
    rw [hrem]
    rw [hplain ha hpos.le] at hid
    omega

/-- Settles O26: the results are those of `tdiv` and `fdiv`, whose laws these are. -/
theorem signedDivisionCandidates : Obligations.SignedDivisionCandidates := by
  unfold Obligations.SignedDivisionCandidates
  intro f g a b hf hg hb hover
  obtain ⟨q, r, hqr, hq, hr⟩ := divideSignedWith_of_identity hb hover (eq_tdiv_tmod_of_sdivTruncates hf hb hover)
    (Int.tdiv_mul_add_tmod ..) (natAbs_tmod_lt hb) (fun ha _ => Int.tdiv_eq_ediv_of_nonneg ha)
  obtain ⟨q', r', hqr', hq', hr'⟩ := divideSignedWith_of_identity hb hover (eq_fdiv_fmod_of_sdivFloors hg hb hover)
    (Int.fdiv_mul_add_fmod ..) (natAbs_fmod_lt hb) (fun _ hb => Int.fdiv_eq_ediv_of_nonneg _ hb)
  have hid := Int.tdiv_mul_add_tmod a.toInt b.toInt
  have hid' := Int.fdiv_mul_add_fmod a.toInt b.toInt
  refine ⟨q, r, q', r', hqr, hqr', ?_⟩
  rw [← BitVec.toInt_inj, ← BitVec.toInt_inj, hq, hr, hq', hr']
  simp only [Int.abs_eq_natAbs, Nat.cast_lt]
  refine ⟨hid.symm, natAbs_tmod_lt hb, tmod_eq_zero_or_sign, hid'.symm, natAbs_fmod_lt hb,
    fmod_eq_zero_or_sign hb, fun h => ?_⟩
  have hquot := tdiv_eq_fdiv_of_dvd_or_sign_eq h
  rw [hquot] at hid
  exact ⟨hquot, by omega⟩

/-! ### Identities (R111) -/

/-- Settles O27: sums of words commute, and the sum of a word's difference is the word. -/
theorem arithmeticIdentities : Obligations.ArithmeticIdentities := by
  unfold Obligations.ArithmeticIdentities
  intro s rd rs rt imm
  refine ⟨congrArg (finish s rd) (BitVec.add_comm ..), _, _, rfl, rfl, ?_⟩
  rw [readReg_advance_writeReg_same, readReg_advance_writeReg_same]
  split
  · rfl
  · exact BitVec.sub_add_cancel ..

end Sys2Proof.Machine
end

section
/-! PROOFS of the family 41_logic_shift: the six logic operations (O28), LUI and the shifts (O29). -/

namespace Sys2Proof.Machine

/-! ### Logic, bit by bit (R125 to R130) -/

/-- A constant's upper 16 bits are 0 (R75, R76). -/
@[simp] theorem getLsbD_constOperand (imm : Imm16) (i : Nat) : (constOperand imm).getLsbD i = imm.getLsbD i := by
  rw [constOperand, BitVec.getLsbD_setWidth]
  refine Bool.and_eq_right_iff_imp.2 fun h => decide_eq_true ?_
  have hi : i < 16 := BitVec.lt_of_getLsbD h
  omega

/-- Inside the word, a bit of the NOR is the NOR of the bits; past it `getLsbD` is false on both. -/
theorem getLsbD_nor (x y : Word) {i : Nat} (hi : i < 32) :
    (~~~(x ||| y)).getLsbD i = !(x.getLsbD i || y.getLsbD i) := by
  rw [BitVec.getLsbD_not, BitVec.getLsbD_or, decide_eq_true hi, Bool.true_and]

/-- Settles O28: each ends in `finish` with the operation on the two words, which works bit by bit. -/
theorem logicBitByBit : Obligations.LogicBitByBit := by
  unfold Obligations.LogicBitByBit
  intro s rd rs rt imm
  refine ⟨⟨toNat_packR3_eq_numberR3 0b001001#6 rd rs rt, finish_completes s rd fun i => BitVec.getLsbD_and⟩,
    ⟨toNat_packI_eq_numberI 0b101001#6 rd rs imm, finish_completes s rd fun i => ?_⟩,
    ⟨toNat_packR3_eq_numberR3 0b001010#6 rd rs rt, finish_completes s rd fun i => BitVec.getLsbD_or⟩,
    ⟨toNat_packI_eq_numberI 0b101010#6 rd rs imm, finish_completes s rd fun i => ?_⟩,
    ⟨toNat_packR3_eq_numberR3 0b001011#6 rd rs rt, finish_completes s rd fun i => getLsbD_nor _ _⟩,
    ⟨toNat_packR3_eq_numberR3 0b001100#6 rd rs rt, finish_completes s rd fun i => BitVec.getLsbD_xor⟩⟩
  · rw [BitVec.getLsbD_and, getLsbD_constOperand]
  · rw [BitVec.getLsbD_or, getLsbD_constOperand]

/-! ### LUI and the shifts as numbers (R120 to R124) -/

/-- LUI's word has a zero field where format I has Rs (R73). -/
theorem toNat_packU_eq_numberI (op : BitVec 6) (d : RegNum) (imm : Imm16) :
    (packU op d imm).toNat = numberI op.toNat d 0#5 imm := toNat_packI op d 0#5 imm

theorem toNat_upperOperand (imm : Imm16) : (upperOperand imm).toNat = imm.toNat * 2 ^ 16 := by
  rw [upperOperand, toNat_append_add, BitVec.toNat_zero, Nat.add_zero]

theorem shiftDistance_eq_mod (v : Word) : shiftDistance v = v.toNat % 32 := BitVec.toNat_setWidth 5 v

theorem shiftDistanceImm_eq_mod (imm : Imm16) : shiftDistanceImm imm = imm.toNat % 32 := BitVec.toNat_setWidth 5 imm

theorem toNat_shiftLeft_eq_mul_pow (x : Word) (n : Nat) : (x <<< n).toNat = x.toNat * 2 ^ n % 2 ^ 32 := by
  rw [BitVec.toNat_shiftLeft, Nat.shiftLeft_eq]

theorem toNat_ushiftRight_eq_div_pow (x : Word) (n : Nat) : (x >>> n).toNat = x.toNat / 2 ^ n := by
  rw [BitVec.toNat_ushiftRight, Nat.shiftRight_eq_div_pow]

/-- Settles O29: each ends in `finish`, with the constant over 16 zero bits or with Rs shifted by the low 5 bits of the
amount. -/
theorem shiftsAndLoadUpper : Obligations.ShiftsAndLoadUpper := by
  unfold Obligations.ShiftsAndLoadUpper
  intro s rd rs rt imm
  simp only [← shiftDistance_eq_mod, ← shiftDistanceImm_eq_mod]
  exact ⟨⟨toNat_packU_eq_numberI 0b000110#6 rd imm, finish_completes s rd (toNat_upperOperand imm)⟩,
    ⟨toNat_packR3_eq_numberR3 0b000111#6 rd rs rt, finish_completes s rd (toNat_shiftLeft_eq_mul_pow _ _)⟩,
    ⟨toNat_packI_eq_numberI 0b101011#6 rd rs imm, finish_completes s rd (toNat_shiftLeft_eq_mul_pow _ _)⟩,
    ⟨toNat_packR3_eq_numberR3 0b001000#6 rd rs rt, finish_completes s rd (toNat_ushiftRight_eq_div_pow _ _)⟩,
    ⟨toNat_packI_eq_numberI 0b101100#6 rd rs imm, finish_completes s rd (toNat_ushiftRight_eq_div_pow _ _)⟩⟩

end Sys2Proof.Machine
end

section
/-! PROOFS of the family 42_load_store: the loads (O31), the stores (O32), and a load of what was stored (O34). -/

namespace Sys2Proof.Machine

/-! ### Loads that complete (R47, R50, R141 to R145) -/

/-- Every byte is an aligned access. -/
theorem accessFault_byte_of_allowed {s : State} {a : Word} {kind : AccessKind}
    (h : mapAllows s.cfg kind a.toNat = true) : accessFault s kind a .byte = none :=
  accessFault_none_iff.2 ⟨Nat.mod_one _, fun i hi => by
    obtain rfl : i = 0 := Nat.lt_one_iff.1 hi
    exact h⟩

section Extended
variable (s : State) (a : Word)

theorem signByte_peek : signByte (peek s a .byte) = (s.mem.read a.toNat).signExtend 32 := by
  simp [peek_byte, signByte]

theorem zeroByte_peek : zeroByte (peek s a .byte) = (s.mem.read a.toNat).setWidth 32 := by
  simp [peek_byte, zeroByte]

theorem signHalf_peek : signHalf (peek s a .half) = (halfAt s a.toNat).signExtend 32 := by
  simp [peek_half, signHalf]

theorem zeroHalf_peek : zeroHalf (peek s a .half) = (halfAt s a.toNat).setWidth 32 := by
  simp [peek_half, zeroHalf]

end Extended

/-- A load that is let through completes with any extended value that meets P. -/
theorem load_completes {s : State} {rd : RegNum} {a : Word} {n : Size} {extend : Word → Word} {P : Word → Prop}
    (h : accessFault s .read a n = none) (hP : P (extend (peek s a n))) :
    ∃ t v, load s rd a n extend = .next t ∧ WritesReg s t rd v ∧ AtNext s t ∧ P v := by
  rw [load_of_allowed h]
  exact finish_completes s rd hP

/-- Settles O31: each is `load` of its size and extension at an admitted address. -/
theorem loadsComplete : Obligations.LoadsComplete := by
  unfold Obligations.LoadsComplete
  rintro s rd rs imm _ rfl
  refine ⟨fun hmap => ?_, fun halign hmap => ?_, fun halign hmap => ?_⟩
  · have haccess := accessFault_byte_of_allowed hmap
    refine ⟨⟨toNat_packI_eq_numberI 0b001101#6 rd rs imm, load_completes haccess ?_⟩,
      toNat_packI_eq_numberI 0b010000#6 rd rs imm, load_completes haccess ?_⟩
    · rw [signByte_peek, BitVec.toInt_signExtend_of_le (by decide)]
    · rw [zeroByte_peek, BitVec.toNat_setWidth_of_le (by decide)]
  · have haccess := (accessFault_none_iff (n := .half)).2 ⟨halign, hmap⟩
    refine ⟨⟨toNat_packI_eq_numberI 0b001110#6 rd rs imm, load_completes haccess ?_⟩,
      toNat_packI_eq_numberI 0b010001#6 rd rs imm, load_completes haccess ?_⟩
    · rw [signHalf_peek, BitVec.toInt_signExtend_of_le (by decide)]
    · rw [zeroHalf_peek, BitVec.toNat_setWidth_of_le (by decide)]
  · have haccess := (accessFault_none_iff (n := .word)).2 ⟨halign, hmap⟩
    obtain ⟨t, v, hload, hwrites, hnext, rfl⟩ :=
      load_completes (rd := rd) (extend := id) (P := (· = wordAt s (effAddr (readReg s rs) imm).toNat)) haccess
        (peek_word s _)
    exact ⟨toNat_packI_eq_numberI 0b001111#6 rd rs imm, t, hload, hwrites, hnext⟩

/-! ### Stores that complete, and what lies in memory after one (R48, R59, R146 to R148) -/

theorem store_completes {s : State} {a : Word} {n : Size} (v : Word) (hwf : s.mem.wf = true)
    (h : accessFault s .write a n = none) :
    ∃ t, store s a n v = .next t ∧ StoresAt s t a.toNat n.bytes ∧ AtNext s t :=
  ⟨_, store_of_allowed h, storesAt_poke v hwf (accessFault_none_iff.1 h).1, atNext_of_pc rfl⟩

theorem size_bytes_le_four (n : Size) : n.bytes ≤ 4 := by cases n <;> decide

section Stored
variable {s t : State} {a v : Word} (hwf : s.mem.wf = true)
include hwf

/-- After a store, an access of its width at its address assembles the value's low bytes, under either order. -/
theorem toNat_peek_of_store {n : Size} (h : store s a n v = .next t) :
    (peek t a n).toNat = v.toNat % 2 ^ (8 * n.bytes) := by
  obtain ⟨-, rfl⟩ := store_next h
  have hsize := size_bytes_le_four n
  have hread := readBytes_writeBytes hwf (a := a.toNat) (toBytes s.cfg.byteOrder n.bytes v)
    (by rw [toBytes_length]; omega)
  rw [toBytes_length] at hread
  rw [peek, advance_mem, poke_mem, hread]
  exact toNat_fromBytes_toBytes _ _ hsize v

theorem wordAt_of_store (h : store s a .word v = .next t) : wordAt t a.toNat = v := by
  obtain ⟨-, rfl⟩ := store_next h
  exact wordAt_poke hwf a v

theorem halfAt_of_store (h : store s a .half v = .next t) : halfAt t a.toNat = v.setWidth 16 := by
  have hpeek := toNat_peek_of_store hwf h
  rw [peek_half, BitVec.toNat_setWidth_of_le (by decide)] at hpeek
  exact BitVec.eq_of_toNat_eq (hpeek.trans (BitVec.toNat_setWidth 16 v).symm)

theorem read_of_store (h : store s a .byte v = .next t) : t.mem.read a.toNat = v.setWidth 8 := by
  have hpeek := toNat_peek_of_store hwf h
  rw [peek_byte, BitVec.toNat_setWidth_of_le (by decide)] at hpeek
  exact BitVec.eq_of_toNat_eq (hpeek.trans (BitVec.toNat_setWidth 8 v).symm)

end Stored

/-- Settles O32: each is `store` of its size at an admitted address. -/
theorem storesComplete : Obligations.StoresComplete := by
  unfold Obligations.StoresComplete
  rintro s rd rs imm _ rfl hwf
  refine ⟨fun hmap => ⟨toNat_packI_eq_numberI 0b010010#6 rd rs imm, ?_⟩,
    fun halign hmap => ⟨toNat_packI_eq_numberI 0b010011#6 rd rs imm, ?_⟩,
    fun halign hmap => ⟨toNat_packI_eq_numberI 0b010100#6 rd rs imm, ?_⟩⟩
  · obtain ⟨t, hstore, hframe, hnext⟩ := store_completes (readReg s rs) hwf (accessFault_byte_of_allowed hmap)
    refine ⟨t, hstore, hframe, hnext, ?_⟩
    rw [read_of_store hwf hstore, BitVec.setWidth_eq_extractLsb' (by decide)]
  · have haccess := (accessFault_none_iff (n := .half)).2 ⟨halign, hmap⟩
    obtain ⟨t, hstore, hframe, hnext⟩ := store_completes (readReg s rs) hwf haccess
    refine ⟨t, hstore, hframe, hnext, ?_⟩
    rw [halfAt_of_store hwf hstore, BitVec.setWidth_eq_extractLsb' (by decide)]
  · have haccess := (accessFault_none_iff (n := .word)).2 ⟨halign, hmap⟩
    obtain ⟨t, hstore, hframe, hnext⟩ := store_completes (readReg s rs) hwf haccess
    exact ⟨t, hstore, hframe, hnext, wordAt_of_store hwf hstore⟩

/-! ### Loading what was stored (R21, R52, R149) -/

/-- What a load that is let through leaves in its destination, R0 included. -/
theorem load_reads {t : State} {rd : RegNum} {a : Word} {n : Size} {extend : Word → Word} {w : Word}
    (h : accessFault t .read a n = none) (hw : extend (peek t a n) = w) :
    ∃ u, load t rd a n extend = .next u ∧ readReg u rd = if rd = 0#5 then 0#32 else w :=
  ⟨_, load_of_allowed h, by rw [readReg_advance_writeReg_same, hw]⟩

/-- Settles O34: the stored bytes are assembled again, and the load extends them. -/
theorem storeThenLoadReturnsTheValue : Obligations.StoreThenLoadReturnsTheValue := by
  unfold Obligations.StoreThenLoadReturnsTheValue
  rintro s t rb rs rb' rd off off' _ hwf rfl haddr
  refine ⟨fun hstore haccess => load_reads haccess ?_,
    fun hstore haccess => ⟨load_reads haccess ?_, load_reads haccess ?_⟩,
    fun hstore haccess => ⟨load_reads haccess ?_, load_reads haccess ?_⟩⟩
  · rw [id, peek_word, haddr, wordAt_of_store hwf hstore]
  · rw [zeroHalf_peek, haddr, halfAt_of_store hwf hstore]
  · rw [signHalf_peek, haddr, halfAt_of_store hwf hstore]
  · rw [zeroByte_peek, haddr, read_of_store hwf hstore]
  · rw [signByte_peek, haddr, read_of_store hwf hstore]

end Sys2Proof.Machine
end

section
/-! PROOFS of the family 43_control_transfer: JR (O36), CALL (O37), B (O38), the conditional branches (O39), their words
(O40) and the laws of their conditions (O41). -/

namespace Sys2Proof.Machine

/-! ### The ten conditions as propositions (R165 to R174) -/

section Conditions
variable {a b : Word}

@[simp] theorem condEq_iff : condEq a b = true ↔ a = b := beq_iff_eq
@[simp] theorem condNe_iff : condNe a b = true ↔ a ≠ b := bne_iff_ne
@[simp] theorem condGe_iff : condGe a b = true ↔ b.toInt ≤ a.toInt := decide_eq_true_iff
@[simp] theorem condGeu_iff : condGeu a b = true ↔ b.toNat ≤ a.toNat := decide_eq_true_iff
@[simp] theorem condGt_iff : condGt a b = true ↔ b.toInt < a.toInt := decide_eq_true_iff
@[simp] theorem condGtu_iff : condGtu a b = true ↔ b.toNat < a.toNat := decide_eq_true_iff
@[simp] theorem condLe_iff : condLe a b = true ↔ a.toInt ≤ b.toInt := decide_eq_true_iff
@[simp] theorem condLeu_iff : condLeu a b = true ↔ a.toNat ≤ b.toNat := decide_eq_true_iff
@[simp] theorem condLt_iff : condLt a b = true ↔ a.toInt < b.toInt := decide_eq_true_iff
@[simp] theorem condLtu_iff : condLtu a b = true ↔ a.toNat < b.toNat := decide_eq_true_iff

/-! ### The conditions are two orders (R175) -/

/-- An order of words by a number that tells them apart: exactly one of less, equal and greater. -/
theorem exactly_one_of_lt_eq_gt {α : Type} [LinearOrder α] {key : Word → α} (hkey : Function.Injective key)
    {lt eq gt : Bool} (hlt : lt = true ↔ key a < key b) (heq : eq = true ↔ a = b) (hgt : gt = true ↔ key b < key a) :
    lt = true ∧ eq = false ∧ gt = false ∨ lt = false ∧ eq = true ∧ gt = false ∨
      lt = false ∧ eq = false ∧ gt = true := by
  rw [← hkey.eq_iff] at heq
  simp only [← Bool.not_eq_true, hlt, heq, hgt]
  obtain h | h | h := lt_trichotomy (key a) (key b)
  · exact .inl ⟨h, h.ne, h.asymm⟩
  · exact .inr (.inl ⟨h.not_lt, h, h.not_gt⟩)
  · exact .inr (.inr ⟨h.asymm, h.ne', h⟩)

theorem eq_not_of_iff_not {x y : Bool} {p q : Prop} (hx : x = true ↔ p) (hy : y = true ↔ q) (h : ¬q ↔ p) : x = !y := by
  rw [Bool.eq_iff_iff, hx, Bool.not_eq_true', ← Bool.not_eq_true, hy, h]

/-- The signed order is the unsigned one, turned round where the sign bits differ. -/
theorem condLt_eq_xor_condLtu : condLt a b = ((a.getLsbD 31 != b.getLsbD 31) ^^ condLtu a b) := by
  rw [← BitVec.msb_eq_getLsbD_last, ← BitVec.msb_eq_getLsbD_last]
  exact BitVec.slt_eq_ult

theorem condLt_ne_condLtu_iff : condLt a b ≠ condLtu a b ↔ a.getLsbD 31 ≠ b.getLsbD 31 := by
  rw [condLt_eq_xor_condLtu, ← Bool.xor_iff_ne, Bool.xor_assoc, Bool.xor_self, Bool.xor_false, bne_iff_ne]

end Conditions

/-- Settles O41: trichotomy of the words as signed and as unsigned numbers. -/
theorem conditionsAreOrders : Obligations.ConditionsAreOrders := by
  unfold Obligations.ConditionsAreOrders
  intro a b
  exact ⟨exactly_one_of_lt_eq_gt (fun _ _ => BitVec.eq_of_toInt_eq) condLt_iff condEq_iff condGt_iff,
    exactly_one_of_lt_eq_gt BitVec.toNat_injective condLtu_iff condEq_iff condGtu_iff,
    eq_not_of_iff_not condGe_iff condLt_iff not_lt, eq_not_of_iff_not condLe_iff condGt_iff not_lt,
    eq_not_of_iff_not condNe_iff condEq_iff Iff.rfl, eq_not_of_iff_not condGeu_iff condLtu_iff not_lt,
    eq_not_of_iff_not condLeu_iff condGtu_iff not_lt, condLt_ne_condLtu_iff⟩

/-! ### Transfers that complete, with their frames (R160) -/

theorem sameRegs_setPc (s : State) (target : Word) : SameRegs s (setPc s target) := fun _ => readReg_setPc ..

theorem writesReg_setPc_writeReg (s : State) (rd : RegNum) (v target : Word) :
    WritesReg s (setPc (writeReg s rd v) target) rd v where
  zero := readReg_zero _
  dest := fun hne => by simp [hne]
  others := fun r hr => by simp [hr]
  rest := ⟨fun _ => by simp, by simp, by simp, by simp, by simp, by simp⟩

/-- A conditional branch completes, taken exactly on its condition. -/
theorem branchIf_completes (s : State) (imm : Imm16) {taken : Bool} {cond : Prop} (h : taken = true ↔ cond) :
    ∃ t, branchIf s taken imm = .next t ∧ Branches s t imm cond := by
  refine ⟨_, branchIf_eq s taken imm, fun hc => ?_, fun hc => ?_, sameRegs_setPc _ _, sameOutsideRegs_setPc ..⟩
  · rw [setPc_pc, if_pos (h.2 hc), toNat_branchTarget]
    rfl
  · exact atNext_of_pc (if_neg (mt h.1 hc))

/-! ### JR, CALL and B (R161 to R163) -/

/-- Settles O36: JR is the checked transfer to the register's value. -/
theorem jumpRegister : Obligations.JumpRegister := by
  unfold Obligations.JumpRegister
  intro s rd
  exact ⟨toNat_packR1 0b010110#6 rd,
    fun haligned => ⟨_, transferChecked_of_aligned (aligned_iff.2 haligned), rfl, sameRegs_setPc _ _,
      sameOutsideRegs_setPc ..⟩,
    transferChecked_of_not_aligned⟩

/-- Settles O37: the link is written, then `pc` goes to the target. -/
theorem callLinksAndJumps : Obligations.CallLinksAndJumps := by
  unfold Obligations.CallLinksAndJumps
  intro s imm
  exact ⟨toNat_packJ 0b011101#6 imm, _, s.pc + 4#32, rfl, writesReg_setPc_writeReg .., BitVec.toNat_add ..,
    toNat_callTarget imm⟩

/-- Settles O38: B only moves `pc`. -/
theorem branchAlways : Obligations.BranchAlways := by
  unfold Obligations.BranchAlways
  intro s imm
  exact ⟨toNat_packJ 0b010101#6 imm, _, rfl, sameRegs_setPc _ _, sameOutsideRegs_setPc .., toNat_jumpTarget s imm⟩

/-! ### The conditional branches and their words (R164 to R174) -/

/-- Settles O39: each is `branchIf` on its own condition. -/
theorem conditionalBranches : Obligations.ConditionalBranches := by
  unfold Obligations.ConditionalBranches
  rintro s rd rs imm _ _ rfl rfl
  exact ⟨branchIf_completes s imm condEq_iff, branchIf_completes s imm condNe_iff,
    branchIf_completes s imm condGe_iff, branchIf_completes s imm condGeu_iff,
    branchIf_completes s imm condGt_iff, branchIf_completes s imm condGtu_iff,
    branchIf_completes s imm condLe_iff, branchIf_completes s imm condLeu_iff,
    branchIf_completes s imm condLt_iff, branchIf_completes s imm condLtu_iff⟩

/-- Settles O40: each word is packed as format I with its own opcode. -/
theorem conditionalBranchEncodings : Obligations.ConditionalBranchEncodings := by
  unfold Obligations.ConditionalBranchEncodings
  intro rd rs imm
  exact ⟨toNat_packI_eq_numberI 0b010111#6 rd rs imm, toNat_packI_eq_numberI 0b011000#6 rd rs imm,
    toNat_packI_eq_numberI 0b011001#6 rd rs imm, toNat_packI_eq_numberI 0b100010#6 rd rs imm,
    toNat_packI_eq_numberI 0b011010#6 rd rs imm, toNat_packI_eq_numberI 0b100011#6 rd rs imm,
    toNat_packI_eq_numberI 0b011011#6 rd rs imm, toNat_packI_eq_numberI 0b100100#6 rd rs imm,
    toNat_packI_eq_numberI 0b011100#6 rd rs imm, toNat_packI_eq_numberI 0b100101#6 rd rs imm⟩

end Sys2Proof.Machine
end

section
/-! PROOFS of the family 45_pseudo_directives: LI (O46), the pseudo-instructions of one instruction (O47), fields of
labels (O48) and named constants (O53). -/

namespace Sys2Proof.Machine

/-! ### LI (R210) -/

theorem WritesReg.trans {s t u : State} {rd : RegNum} {v w : Word} (hst : WritesReg s t rd v)
    (htu : WritesReg t u rd w) : WritesReg s u rd w where
  zero := htu.zero
  dest := htu.dest
  others := fun r hr => (htu.others r hr).trans (hst.others r hr)
  rest := {
    mem := fun a => (htu.rest.mem a).trans (hst.rest.mem a)
    written := htu.rest.written.trans hst.rest.written
    epc := htu.rest.epc.trans hst.rest.epc
    halted := htu.rest.halted.trans hst.rest.halted
    cfg := htu.rest.cfg.trans hst.rest.cfg
    freeCount := htu.rest.freeCount.trans hst.rest.freeCount }

/-- A write to R0 is dropped (R21), so its value does not matter. -/
theorem WritesReg.congr {s t : State} {rd : RegNum} {v w : Word} (h : WritesReg s t rd v) (hvw : rd ≠ 0#5 → v = w) :
    WritesReg s t rd w :=
  { h with dest := fun hne => (h.dest hne).trans (hvw hne) }

theorem or_constOperand_eq_append (hi lo : Imm16) : (hi ++ 0#16) ||| constOperand lo = hi ++ lo := by
  have hlower : constOperand lo = 0#16 ++ lo := BitVec.setWidth_eq_append (by decide)
  rw [hlower, BitVec.or_append, BitVec.or_zero, BitVec.zero_or]

theorem extractLsb'_halves_append (value : Word) : value.extractLsb' 16 16 ++ value.extractLsb' 0 16 = value := by
  exact (BitVec.extractLsb'_append_extractLsb'_eq_extractLsb' rfl).trans BitVec.extractLsb'_eq_self

/-- Settles O46: LUI leaves the upper half-word over zeros, into which ORI puts the lower one. -/
theorem loadImmediateMakesTheConstant : Obligations.LoadImmediateMakesTheConstant := by
  unfold Obligations.LoadImmediateMakesTheConstant
  refine ⟨fun s rd value => ?_, by decide⟩
  obtain ⟨t, ht, hlui, hpc⟩ : ∃ t, exec (.lui rd (value.extractLsb' 16 16)) s = .next t ∧
      WritesReg s t rd (value.extractLsb' 16 16 ++ 0x0000#16) ∧ t.pc = s.pc + 4#32 :=
    ⟨_, rfl, writesReg_advance_writeReg s rd _, by simp⟩
  refine ⟨rfl, t, _, ht, hlui, rfl, (hlui.trans (writesReg_advance_writeReg t rd _)).congr fun hne => ?_, ?_⟩
  · rw [hlui.dest hne, or_constOperand_eq_append, extractLsb'_halves_append]
  · simp [hpc, BitVec.toNat_add, Nat.add_assoc]

/-! ### NOT, NOP, MOVE, NEG, LLI, RET (R203 to R206, R209, R211) -/

theorem toNat_nor_self (x : Word) : (~~~(x ||| x)).toNat = 2 ^ 32 - 1 - x.toNat := by
  rw [BitVec.or_self, BitVec.toNat_not]

/-- Settles O47: each is the ending of its one instruction, where R0 reads as 0. -/
theorem pseudoInstructionEffects : Obligations.PseudoInstructionEffects := by
  unfold Obligations.PseudoInstructionEffects
  refine ⟨fun s rd rs imm => ⟨⟨rfl, finish_completes s rd (toNat_nor_self _)⟩, ⟨rfl, _, finish_zero s _, rfl, ?_⟩,
    ⟨rfl, _, rfl, ?_, atNext_advance_writeReg ..⟩, ⟨rfl, finish_completes s rd ?_⟩, ⟨rfl, finish_completes s rd ?_⟩,
    rfl, fun haligned => ?_⟩, by decide, by decide, by decide, by decide, by decide, by decide⟩
  · exact atNext_of_pc rfl
  · refine (writesReg_advance_writeReg s rd _).congr fun _ => ?_
    rw [readReg_zero, BitVec.add_zero]
  · rw [toNat_sub_eq_emod, readReg_zero]
    rfl
  · rw [readReg_zero, BitVec.zero_or, toNat_constOperand]
  · exact ⟨_, transferChecked_of_aligned (aligned_iff.2 haligned), rfl, sameRegs_setPc _ _, sameOutsideRegs_setPc ..⟩

/-! ### The fields of labels (R207, R208, R212) -/

/-- The distance of two addresses as integers (log 32), so no modulus stands here. -/
theorem toNat_of_labelOff16 {a l : Word} {f : Imm16} (h : labelOff16 a l = some f) :
    (l.toNat : Int) = a.toNat + f.toInt * 4 := by
  obtain ⟨⟨hdvd, hlo, hhi⟩, hf⟩ := Option.ite_none_right_eq_some.1 h
  obtain rfl := Option.some.inj hf
  rw [BitVec.toInt_ofInt, Int.bmod_eq_of_le (by omega) (by omega)]
  omega

theorem toNat_of_labelOff26 {a l : Word} {f : Imm26} (h : labelOff26 a l = some f) :
    (l.toNat : Int) = a.toNat + f.toInt * 4 := by
  obtain ⟨⟨hdvd, hlo, hhi⟩, hf⟩ := Option.ite_none_right_eq_some.1 h
  obtain rfl := Option.some.inj hf
  rw [BitVec.toInt_ofInt, Int.bmod_eq_of_le (by omega) (by omega)]
  omega

theorem toNat_of_labelConst26 {l : Word} {f : Imm26} (h : labelConst26 l = some f) : l.toNat = f.toNat * 4 := by
  obtain ⟨⟨hdvd, hlt⟩, hf⟩ := Option.ite_none_right_eq_some.1 h
  obtain rfl := Option.some.inj hf
  rw [BitVec.toNat_ofNat]
  omega

/-- A target that is, modulo 2^32, the number of a word is that word. -/
theorem eq_of_toNat_emod {target l : Word} {k : Int} (ht : (target.toNat : Int) = k % 2 ^ 32) (hl : (l.toNat : Int) = k) :
    target = l := by
  have := l.isLt
  exact BitVec.eq_of_toNat_eq (by omega)

theorem branchTarget_of_labelOff16 {s : State} {l : Word} {f : Imm16} (h : labelOff16 s.pc l = some f) :
    branchTarget s f = l :=
  eq_of_toNat_emod (toNat_branchTarget s f) (toNat_of_labelOff16 h)

theorem jumpTarget_of_labelOff26 {s : State} {l : Word} {f : Imm26} (h : labelOff26 s.pc l = some f) :
    jumpTarget s f = l :=
  eq_of_toNat_emod (toNat_jumpTarget s f) (toNat_of_labelOff26 h)

theorem callTarget_of_labelConst26 {l : Word} {f : Imm26} (h : labelConst26 l = some f) : callTarget f = l :=
  BitVec.eq_of_toNat_eq ((toNat_callTarget f).trans (toNat_of_labelConst26 h).symm)

/-- Settles O48: the field is the exact distance, so the target is the label; BEQZ and BNEZ compare with R0, which reads
as 0. -/
theorem labelFieldsReachTheLabel : Obligations.LabelFieldsReachTheLabel := by
  unfold Obligations.LabelFieldsReachTheLabel
  intro s l rd
  refine ⟨fun f hf => ?_, fun f hf => ⟨_, rfl, jumpTarget_of_labelOff26 hf⟩,
    fun f hf => ⟨_, rfl, callTarget_of_labelConst26 hf⟩⟩
  have htarget := branchTarget_of_labelOff16 hf
  refine ⟨htarget, ⟨_, _, rfl, branchIf_eq s _ f, ?_⟩, ⟨_, _, rfl, branchIf_eq s _ f, ?_⟩⟩
  · rw [setPc_pc, htarget, readReg_zero]
    simp only [condEq_iff]
  · rw [setPc_pc, htarget, readReg_zero]
    simp only [condNe_iff, ite_not]

/-! ### Named constants (R200, R218) -/

/-- The operands that take a number or a name: every immediate value and offset. -/
def valueForms : List (Value → SourceOperand) := [.const16, .const26, .const32, .off16, .off26]

/-- A value form sees only the number its value stands for. -/
theorem resolveOperand_of_valueForm {form : Value → SourceOperand} (hform : form ∈ valueForms)
    (constants : List (String × Int)) :
    ∃ pack : Int → Option Operand, ∀ v, resolveOperand constants (form v) = (v.resolve constants).bind pack := by
  have hunsigned : ∀ (make : Nat → Operand) (v : Value), ((v.resolve constants).bind asUnsigned).map make =
      (v.resolve constants).bind fun k => (asUnsigned k).map make := fun _ _ => Option.map_bind
  have hsigned : ∀ (make : Int → Operand) (v : Value), (v.resolve constants).map make =
      (v.resolve constants).bind fun k => some (make k) := fun _ _ => Option.map_eq_bind
  fin_cases hform
  · exact ⟨_, hunsigned .const16⟩
  · exact ⟨_, hunsigned .const26⟩
  · exact ⟨_, hunsigned .const32⟩
  · exact ⟨_, hsigned .off16⟩
  · exact ⟨_, hsigned .off26⟩

theorem resolveOperands_congr {constants : List (String × Int)} {x y : SourceOperand}
    (h : resolveOperand constants x = resolveOperand constants y) (before after : List SourceOperand) :
    resolveOperands constants (before ++ x :: after) = resolveOperands constants (before ++ y :: after) := by
  induction before with
  | nil => simp only [List.nil_append, resolveOperands, h]
  | cons op ops ih => simp only [List.cons_append, resolveOperands, ih]

/-- One operand without a number leaves the whole line without operands. -/
theorem resolveOperands_of_none {constants : List (String × Int)} {x : SourceOperand}
    (h : resolveOperand constants x = none) (before after : List SourceOperand) :
    resolveOperands constants (before ++ x :: after) = none := by
  induction before with
  | nil => simp only [List.nil_append, resolveOperands, h, Option.bind_none]
  | cons op ops ih => simp only [List.cons_append, resolveOperands, ih, Option.map_none, Option.bind_fun_none]

/-- A `.define` is accepted exactly with a name that is alphanumeric and not empty, and only adds its constant. -/
theorem layLine_define (o : ByteOrder) (labels : List String) (a : Assembly) (n : String) (v : Int) :
    layLine o labels a (.directive (.define n v)) =
      if n.toList.all Char.isAlphanum && !n.toList.isEmpty then some { a with constants := (n, v) :: a.constants }
      else none := rfl

/-- Settles O53: after the `.define`, name and number resolve alike, and a line sees its operands resolved only. -/
theorem definedNamesStandForTheirValue : Obligations.DefinedNamesStandForTheirValue := by
  unfold Obligations.DefinedNamesStandForTheirValue
  intro o labels a n v
  refine ⟨fun hne halnum => ?_, fun ⟨c, hc, hbad⟩ => ?_, fun hnone form hform before after => ?_⟩
  · refine ⟨{ a with constants := (n, v) :: a.constants }, ?_, rfl, rfl, fun form hform before after => ?_⟩
    · rw [layLine_define, if_pos (by simp [hne, List.all_eq_true.2 halnum])]
    · obtain ⟨pack, hpack⟩ := resolveOperand_of_valueForm hform ((n, v) :: a.constants)
      have hvalue : (Value.name n).resolve ((n, v) :: a.constants) = (Value.number v).resolve ((n, v) :: a.constants) :=
        List.lookup_cons_self
      have hname : resolveOperand ((n, v) :: a.constants) (form (.name n)) =
          resolveOperand ((n, v) :: a.constants) (form (.number v)) := by rw [hpack, hpack, hvalue]
      have hops := resolveOperands_congr hname before after
      exact ⟨fun m => by simp only [layLine, hops], fun m => by simp only [layLine, hops]⟩
  · have hall : n.toList.all Char.isAlphanum = false := List.all_eq_false.2 ⟨c, hc, by simp [hbad]⟩
    rw [layLine_define, hall, Bool.false_and, if_neg Bool.false_ne_true]
  · obtain ⟨pack, hpack⟩ := resolveOperand_of_valueForm hform a.constants
    have hvalue : (Value.name n).resolve a.constants = none := hnone
    have hname : resolveOperand a.constants (form (.name n)) = none := by rw [hpack, hvalue, Option.bind_none]
    have hops := resolveOperands_of_none hname before after
    exact ⟨fun m => by rw [layLine, hops, Option.bind_none], fun m => by rw [layLine, hops, Option.bind_none]⟩

end Sys2Proof.Machine
end

section
/-! PROOFS of the family 60_exceptions: which instruction raises which fault (O12), and entry and return (O45). -/

namespace Sys2Proof.Machine

/-! ### No ending of an instruction is a refusal -/

section Refusals
variable {s : State} {r : Refusal}

theorem load_ne_refused {rd : RegNum} {a : Word} {n : Size} {extend : Word → Word} :
    load s rd a n extend ≠ .refused r := by
  unfold load
  split <;> nofun

theorem store_ne_refused {a v : Word} {n : Size} : store s a n v ≠ .refused r := by
  unfold store
  split <;> nofun

theorem finishDivision_ne_refused {rd : RegNum} {result : Except Fault (Word × Word)} :
    finishDivision s rd result ≠ .refused r := by
  cases result <;> nofun

theorem transferChecked_ne_refused {target : Word} : transferChecked s target ≠ .refused r := by
  unfold transferChecked
  split <;> nofun

theorem returnFromException_ne_refused : returnFromException s ≠ .refused r := by
  unfold returnFromException
  split
  · nofun
  · exact transferChecked_ne_refused

theorem branchIf_ne_refused {taken : Bool} {imm : Imm16} : branchIf s taken imm ≠ .refused r := by
  rw [branchIf_eq]
  nofun

end Refusals

theorem exec_ne_refused (i : Instr) (s : State) (r : Refusal) : exec i s ≠ .refused r := by
  cases i <;> simp only [exec]
  case lb | lh | lw | lbu | lhu => exact load_ne_refused
  case sb | sh | sw => exact store_ne_refused
  case divu | div => exact finishDivision_ne_refused
  case jr => exact transferChecked_ne_refused
  case eret => exact returnFromException_ne_refused
  case beq | bne | bge | bgeu | bgt | bgtu | ble | bleu | blt | bltu => exact branchIf_ne_refused
  all_goals nofun -- the rest ends in `.next`

/-! ### The column "raised by" of R236 -/

/-- The instructions that raise a fault; those of the fetch, the decoding and the halted state are raised by none. -/
def raisedBy : Fault → List Mnemonic
  | .accessNotAdmitted => [.LB, .LH, .LW, .LBU, .LHU, .SB, .SH, .SW]
  | .misalignedData => [.LH, .LHU, .LW, .SH, .SW]
  | .divideByZero => [.DIVU, .DIV]
  | .divideOverflow => [.DIV]
  | .misalignedTarget => [.JR, .ERET]
  | .eretNoAddress => [.ERET]
  | .misalignedFetch | .fetchOfModified | .illegalOpcode | .reservedBitsNonzero | .stuckHalted => []

/-- A byte is never misaligned (R46). -/
theorem accessFault_byte_some {s : State} {kind : AccessKind} {a : Word} {f : Fault}
    (h : accessFault s kind a .byte = some f) : f = .accessNotAdmitted := by
  obtain ⟨hmis, -⟩ | ⟨-, hf, -⟩ := accessFault_some_iff.1 h
  · exact absurd (Nat.mod_one _) hmis
  · exact hf

theorem mnemonicOf_mem_raisedBy {i : Instr} {s : State} {f : Fault} (h : exec i s = .fault f) :
    mnemonicOf i ∈ raisedBy f := by
  cases i <;> simp only [exec, mnemonicOf] at h ⊢
  case lb | lbu => obtain rfl := accessFault_byte_some (load_fault h); decide
  case lh | lw | lhu => obtain rfl | rfl := accessFault_some_mem (load_fault h) <;> decide
  case sb => obtain rfl := accessFault_byte_some (store_fault h); decide
  case sh | sw => obtain rfl | rfl := accessFault_some_mem (store_fault h) <;> decide
  case divu => obtain rfl := divideUnsigned_error (finishDivision_fault h); decide
  case div => obtain rfl | rfl := divideSigned_error (finishDivision_fault h) <;> decide
  case jr => obtain rfl := transferChecked_fault h; decide
  case eret => obtain rfl | rfl := returnFromException_fault h <;> decide
  case beq | bne | bge | bgeu | bgt | bgtu | ble | bleu | blt | bltu => exact nomatch (branchIf_eq ..).symm.trans h
  all_goals cases h -- the rest ends in `.next`

/-- Settles O12: no ending of an instruction is a refusal, and the column of R236 is read off fault by fault. -/
theorem faultsOnlyWhereTheRulesRaiseThem : Obligations.FaultsOnlyWhereTheRulesRaiseThem := by
  unfold Obligations.FaultsOnlyWhereTheRulesRaiseThem
  intro i s
  refine ⟨exec_ne_refused i s, fun f hf => ?_⟩
  have hmem := mnemonicOf_mem_raisedBy hf
  cases f
  case accessNotAdmitted | misalignedData | divideByZero | misalignedTarget => exact hmem
  case divideOverflow | eretNoAddress => exact List.mem_singleton.1 hmem
  case misalignedFetch | fetchOfModified | illegalOpcode | reservedBitsNonzero | stuckHalted =>
    exact List.not_mem_nil hmem

/-! ### Entry and return (R233, R235, R191) -/

/-- No step writes the saved address (R234), so it stays during a run. -/
theorem steps_epc {s t : State} (hrun : Steps s t) : t.epc = s.epc :=
  hrun.keeps (P := fun u => u.epc = s.epc)
    (fun u v hu hstep => (everyStepKeepsTheParameters u v hstep).2.trans hu) rfl

/-- Settles O45: entry changes `epc` and `pc` alone, and the handler's steps keep `epc`, to which ERET transfers. -/
theorem exceptionEntryThenReturn : Obligations.ExceptionEntryThenReturn := by
  unfold Obligations.ExceptionEntryThenReturn
  intro s t resume handler
  refine ⟨⟨takeException_epc .., takeException_pc .., fun _ => readReg_takeException .., fun _ => rfl,
    takeException_halted ..⟩, fun haligned hrun => ?_⟩
  have hsaved : t.epc = some resume := steps_epc hrun
  refine ⟨setPc t resume, ?_, rfl, sameRegs_setPc t resume, sameOutsideRegs_setPc t resume⟩
  rw [exec_eret_of_saved hsaved, transferChecked_of_aligned (aligned_iff.2 haligned)]

end Sys2Proof.Machine
end

section
/-! PROOFS of the family 70_reset_and_hazards: a launch state meets the invariant (O14). -/

namespace Sys2Proof.Machine

/-- A launch puts `pc` at `RESET_PC` and has written nothing (R261), so what it owes the invariant is `RESET_PC`, the
memory and the unused slot it is given. -/
theorem inv_launch {c : Config} {regs : Vector Word 32} {mem : Memory} (epc : Option Word) (hc : c.wf = true)
    (hmem : mem.wf = true) (hslot : regs[0] = 0#32) : (State.launch c regs mem epc).Inv where
  memWf := hmem
  writtenWf := rfl
  slotZero := hslot
  cfgWf := hc
  pcAligned := fun _ => hc

/-- Settles O14: reset is the launch with the chosen parameters, registers at 0 and a memory that lists nothing. -/
theorem launchMeetsTheInvariant : Obligations.LaunchMeetsTheInvariant := by
  unfold Obligations.LaunchMeetsTheInvariant
  refine ⟨inv_launch (c := Config.chosen) none rfl rfl rfl, ?_⟩
  rintro s ⟨c, regs, mem, epc, hc, rfl⟩ hmem hslot
  exact inv_launch epc hc hmem hslot

end Sys2Proof.Machine
end
